-- ==== Sys2Proof/Word.lean ====
section
/-! DEFINITION. The widths of the unit's values (R9, R10, R11): every value is an unsigned bit vector, bit 0 the least
significant bit; a byte read as a polynomial over GF(2) has bit i as its coefficient of x^i (R10, R54). -/

namespace Sys2Proof

/-- A field element, a byte to transform, a table entry or a table index (R9 ELEM_W, R54). -/
abbrev Byte := BitVec 8

/-- The rotation amount of ROTL8, 0..7 (R41, R61). -/
abbrev Shift := BitVec 3

/-- A command word CW (R9 CW_W, R39). -/
abbrev CommandWord := BitVec 24

/-- A status code, the field ST of a response word (R46). -/
abbrev StatusCode := BitVec 4

/-- A response word RW (R9 RW_W, R46). -/
abbrev ResponseWord := BitVec 12

end Sys2Proof
end

