-- ==== Sys2Proof/Config.lean ====
section
/-! DEFINITION. What one instance of the unit fixes, and the one value the spec does not define. -/

namespace Sys2Proof

/-- The configuration of one instance (R9, the parameters marked OPEN; R23): constant for the life of the unit. It is carried
in the state as plain data, so that a claim about every state is a claim about every seed (D2); no step changes it. -/
structure Config where
  /-- RCON_SEED, the value of Rcon entry 0 (R9, R71, D2). -/
  rconSeed : Byte
  deriving DecidableEq, Repr

/-- The default instance, RCON_SEED = 0x01 (R9, D2). -/
def Config.default : Config := { rconSeed := 0x01#8 }

/-- What `gfinv` is where the spec does not define it, at 0x00 (R59, U1): a free value, with no body. No command reads it.
DESIGN CHOICE, log 4. -/
opaque Config.inverseOfZero : Byte

end Sys2Proof
end

