-- ==== Sys2Proof/Machine/Field.lean ====
section
/-! DEFINITION. The pure functions of the field arithmetic (R55, R57, R59, R61, R63): bytes to bytes, no state (R67). -/

namespace Sys2Proof.Machine

/-- RED, the reduction polynomial 0x11B without its bit 8 (R9). -/
def reductionConstant : Byte := 0x1B#8

/-- AFF_C, the constant of the affine transform (R9). -/
def affineConstant : Byte := 0x63#8

/-- Doubling (R55): shift left one bit; if the bit shifted out was set, XOR with 0x1B. -/
def xtime (a : Byte) : Byte :=
  let t := a <<< 1
  if a.getLsbD 7 then t ^^^ reductionConstant else t

/-- One turn of the multiplier's loop (R57) on the pair (p, t): add t to p if bit i of b is set, then double t. -/
def gfmulTurn (b : Byte) (pt : Byte × Byte) (i : Nat) : Byte × Byte :=
  (if b.getLsbD i then pt.1 ^^^ pt.2 else pt.1, xtime pt.2)

/-- Multiplication modulo 0x11B by repeated doubling, low bit of b first (R57). -/
def gfmul (a b : Byte) : Byte := ((List.range 8).foldl (gfmulTurn b) (0x00#8, a)).1

/-- The candidates of the inverse's search, 1 to 255 in order (R59). -/
def inverseCandidates : List Byte := (List.range 255).map fun k => BitVec.ofNat 8 (k + 1)

/-- The multiplicative inverse of a nonzero a, by the search of R59: the candidate whose product with a is 1. At 0x00, where
the spec does not define it (R59, U1), no candidate is found and the answer is a free value (log 4). -/
def gfinv (a : Byte) : Byte :=
  (inverseCandidates.find? fun x => gfmul a x == 0x01#8).getD Config.inverseOfZero

/-- Rotation left, toward bit 7, by s (R61). A shift by 8, for s = 0, drops every bit. -/
def rotl8 (x : Byte) (s : Shift) : Byte := (x <<< s.toNat) ||| (x >>> (8 - s.toNat))

/-- The affine transform (R63). -/
def affine (x : Byte) : Byte :=
  x ^^^ rotl8 x 1#3 ^^^ rotl8 x 2#3 ^^^ rotl8 x 3#3 ^^^ rotl8 x 4#3 ^^^ affineConstant

/-- The value GENSBOX gives SBOX[i] (R68): the constant 0x63 at index 0, where gfinv is not called, else
affine(gfinv(i)). -/
def sboxEntry (i : Byte) : Byte := if i = 0x00#8 then 0x63#8 else affine (gfinv i)

/-- The value GENRCON gives RCON[i] (R71): xtime applied i times to RCON_SEED. -/
def rconEntry (seed : Byte) : Nat → Byte
  | 0 => seed
  | i + 1 => xtime (rconEntry seed i)

end Sys2Proof.Machine
end

