-- ==== Sys2Proof/Syntax.lean ====
section
/-! DEFINITION. The ten commands (R42), one constructor for each row of spec/opcode_table.json, and the lines of the
assembler notation (R49). -/

namespace Sys2Proof

/-- A command (R42). The widths of the operands are the ranges the spec gives them (R41): every term is a legal command. -/
inductive Instr where
  /-- XTIME a (R56). -/
  | xtime (a : Byte)
  /-- GFMUL a, b (R58). -/
  | gfmul (a b : Byte)
  /-- GFINV a (R60). -/
  | gfinv (a : Byte)
  /-- ROTL8 x, s (R62). -/
  | rotl8 (x : Byte) (s : Shift)
  /-- AFFINE x (R64). -/
  | affine (x : Byte)
  /-- GENSBOX (R69). -/
  | gensbox
  /-- GENRCON (R72). -/
  | genrcon
  /-- SBOX i (R74). -/
  | sbox (i : Byte)
  /-- ISBOX i (R75). -/
  | isbox (i : Byte)
  /-- RCON i (R76): an index above 9 is a legal command that fails when it is executed (R44, R93). -/
  | rcon (i : Byte)
  deriving DecidableEq, Repr

/-- The four formats of a command word (R40). -/
inductive Format where
  /-- No operand: A and B are zero. -/
  | n
  /-- One operand in A: B is zero. -/
  | u
  /-- An operand in A and a shift in B[2:0]: B[7:3] is zero. -/
  | s
  /-- Two operands, in A and B. -/
  | m
  deriving DecidableEq, Repr

/-- One line of the assembler notation (R49), its operands numbers as they are written. The rotation amount of ROTL8 and the
index of RCON may be written in decimal; a number is the same either way. -/
inductive SourceLine where
  | xtime (a : Nat)
  | gfmul (a b : Nat)
  | gfinv (a : Nat)
  | rotl8 (x s : Nat)
  | affine (x : Nat)
  | gensbox
  | genrcon
  | sbox (i : Nat)
  | isbox (i : Nat)
  | rcon (i : Nat)
  /-- `.word 0xhhhhhh`: any 24-bit command word, legal or not. -/
  | word (w : Nat)
  deriving DecidableEq, Repr

end Sys2Proof
end

