-- ==== Sys2Proof/WellFormed.lean ====
section
/-! DEFINITION. The checks on what is written down: a line of the assembler notation (R49) and a command word held against the
opcode map (R42). A term of `Instr` needs no check: its operands' widths are the ranges of the spec (R41). -/

namespace Sys2Proof

/-- One row of the opcode map (R42): a word w is the row's command exactly when w AND mask = match. -/
structure OpcodeRow where
  mnemonic : String
  opcode : BitVec 8
  format : Format
  matchBits : CommandWord
  mask : CommandWord
  deriving DecidableEq, Repr

/-- The opcode map (R42), row by row. -/
def opcodeTable : List OpcodeRow :=
  [ ⟨"XTIME", 0x01#8, .u, 0x010000#24, 0xFF00FF#24⟩,
    ⟨"GFMUL", 0x02#8, .m, 0x020000#24, 0xFF0000#24⟩,
    ⟨"GFINV", 0x03#8, .u, 0x030000#24, 0xFF00FF#24⟩,
    ⟨"ROTL8", 0x04#8, .s, 0x040000#24, 0xFF00F8#24⟩,
    ⟨"AFFINE", 0x05#8, .u, 0x050000#24, 0xFF00FF#24⟩,
    ⟨"GENSBOX", 0x06#8, .n, 0x060000#24, 0xFFFFFF#24⟩,
    ⟨"GENRCON", 0x07#8, .n, 0x070000#24, 0xFFFFFF#24⟩,
    ⟨"SBOX", 0x08#8, .u, 0x080000#24, 0xFF00FF#24⟩,
    ⟨"ISBOX", 0x09#8, .u, 0x090000#24, 0xFF00FF#24⟩,
    ⟨"RCON", 0x0A#8, .u, 0x0A0000#24, 0xFF00FF#24⟩ ]

/-- Whether the word is the row's command (R42). -/
def OpcodeRow.admits (r : OpcodeRow) (w : CommandWord) : Bool := w &&& r.mask == r.matchBits

/-- Whether a command word is one of the ten commands, by the opcode map (R42, R43, R44). -/
def legalWord (w : CommandWord) : Bool := opcodeTable.any fun r => r.admits w

/-- The mnemonic of a command, as the opcode map spells it (R42). -/
def Instr.mnemonic : Instr → String
  | .xtime _ => "XTIME"
  | .gfmul _ _ => "GFMUL"
  | .gfinv _ => "GFINV"
  | .rotl8 _ _ => "ROTL8"
  | .affine _ => "AFFINE"
  | .gensbox => "GENSBOX"
  | .genrcon => "GENRCON"
  | .sbox _ => "SBOX"
  | .isbox _ => "ISBOX"
  | .rcon _ => "RCON"

/-- Whether an operand fits a byte: an assembler refuses an operand above 0xFF (R49). -/
def fitsByte (n : Nat) : Bool := n < 256

/-- Whether a line can be assembled (R49): every operand fits its field, the rotation amount is 0..7, a word has 24 bits. -/
def SourceLine.wellFormed : SourceLine → Bool
  | .xtime a => fitsByte a
  | .gfmul a b => fitsByte a && fitsByte b
  | .gfinv a => fitsByte a
  | .rotl8 x s => fitsByte x && decide (s < 8)
  | .affine x => fitsByte x
  | .gensbox => true
  | .genrcon => true
  | .sbox i => fitsByte i
  | .isbox i => fitsByte i
  | .rcon i => fitsByte i
  | .word w => decide (w < 2 ^ 24)

end Sys2Proof
end

