-- ==== Sys2Proof/Decode.lean ====
section
/-! DEFINITION. Decoding a command word (R39, R41, R45), total on all 2^24 words, and encoding a command (R40, R45). -/

namespace Sys2Proof

/-- The field OP = CW[23:16] (R39). -/
def opField (w : CommandWord) : Byte := w.extractLsb' 16 8

/-- The field A = CW[15:8] (R39). -/
def aField (w : CommandWord) : Byte := w.extractLsb' 8 8

/-- The field B = CW[7:0] (R39). -/
def bField (w : CommandWord) : Byte := w.extractLsb' 0 8

/-- The rotation amount B[2:0] of format S (R40, R41). -/
def shiftOf (b : Byte) : Shift := b.extractLsb' 0 3

/-- The must-be-zero bits B[7:3] of format S (R44). -/
def shiftPadOf (b : Byte) : BitVec 5 := b.extractLsb' 3 5

/-- The word with these three fields (R39). -/
def commandWord (op a b : Byte) : CommandWord := op ++ a ++ b

/-- Why a word is none of the ten commands. Both are answered ERR_ILLEGAL_CMD (R91); the reason is not delivered (R13).
DESIGN CHOICE, log 14. -/
inductive IllegalWord where
  /-- OP is 0x00 or 0x0B..0xFF (R43). -/
  | reservedOpcode
  /-- A legal opcode with a nonzero must-be-zero bit (R44). -/
  | mustBeZero
  deriving DecidableEq, Repr

/-- What decoding answers. -/
inductive Decoded where
  | command (i : Instr)
  | illegal (why : IllegalWord)
  deriving DecidableEq, Repr

/-- The command where the must-be-zero bits are zero, and illegal otherwise (R44). -/
def ifZero (zero : Bool) (i : Instr) : Decoded := if zero then .command i else .illegal .mustBeZero

/-- Decoding (R45). It reads the word alone. -/
def decode (w : CommandWord) : Decoded :=
  let a := aField w
  let b := bField w
  match (opField w).toNat with
  | 0x01 => ifZero (b == 0x00#8) (.xtime a)
  | 0x02 => .command (.gfmul a b)
  | 0x03 => ifZero (b == 0x00#8) (.gfinv a)
  | 0x04 => ifZero (shiftPadOf b == 0#5) (.rotl8 a (shiftOf b))
  | 0x05 => ifZero (b == 0x00#8) (.affine a)
  | 0x06 => ifZero (a == 0x00#8 && b == 0x00#8) .gensbox
  | 0x07 => ifZero (a == 0x00#8 && b == 0x00#8) .genrcon
  | 0x08 => ifZero (b == 0x00#8) (.sbox a)
  | 0x09 => ifZero (b == 0x00#8) (.isbox a)
  | 0x0A => ifZero (b == 0x00#8) (.rcon a)
  | _ => .illegal .reservedOpcode

/-- The command word of a command (R45): its opcode in OP, its operands in A and B as its format has them (R40), zero
elsewhere. -/
def encode : Instr → CommandWord
  | .xtime a => commandWord 0x01#8 a 0x00#8
  | .gfmul a b => commandWord 0x02#8 a b
  | .gfinv a => commandWord 0x03#8 a 0x00#8
  | .rotl8 x s => commandWord 0x04#8 x (0#5 ++ s)
  | .affine x => commandWord 0x05#8 x 0x00#8
  | .gensbox => commandWord 0x06#8 0x00#8 0x00#8
  | .genrcon => commandWord 0x07#8 0x00#8 0x00#8
  | .sbox i => commandWord 0x08#8 i 0x00#8
  | .isbox i => commandWord 0x09#8 i 0x00#8
  | .rcon i => commandWord 0x0A#8 i 0x00#8

/-- The command word of a line that can be assembled, and nothing for one that cannot (R49). -/
def SourceLine.assemble (l : SourceLine) : Option CommandWord :=
  if l.wellFormed then
    some <| match l with
      | .xtime a => encode (.xtime (BitVec.ofNat 8 a))
      | .gfmul a b => encode (.gfmul (BitVec.ofNat 8 a) (BitVec.ofNat 8 b))
      | .gfinv a => encode (.gfinv (BitVec.ofNat 8 a))
      | .rotl8 x s => encode (.rotl8 (BitVec.ofNat 8 x) (BitVec.ofNat 3 s))
      | .affine x => encode (.affine (BitVec.ofNat 8 x))
      | .gensbox => encode .gensbox
      | .genrcon => encode .genrcon
      | .sbox i => encode (.sbox (BitVec.ofNat 8 i))
      | .isbox i => encode (.isbox (BitVec.ofNat 8 i))
      | .rcon i => encode (.rcon (BitVec.ofNat 8 i))
      | .word w => BitVec.ofNat 24 w
  else none

/-- The command word whose bits the opcode table numbers as w: the low nbits bits of w, every bit above them zero. A command
word is one parallel word of 24 bits (R29, R39), so its bits are the table's bits (DEDUCED, log 10). -/
def tableWord (nbits w : Nat) : CommandWord := BitVec.ofNat 24 (w % 2 ^ nbits)

/-- The command the decoder reads from a word of the opcode table, none where it refuses. -/
def decodeTableWord (nbits w : Nat) : Option Instr :=
  match decode (tableWord nbits w) with
  | .command i => some i
  | .illegal _ => none

end Sys2Proof
end

