-- ==== Sys2Proof/Machine/State.lean ====
section
/-! DEFINITION. The state of the unit (R14), the input and output a step reads and writes, and the reasons a step can stop. -/

namespace Sys2Proof.Machine

/-- The status of a response (R90): the five values the unit produces. Codes 0x5 to 0xF are never produced, so they have no
value here (R90, U9). -/
inductive Status where
  /-- 0x0: the command completed; DATA is its result. -/
  | ok
  /-- 0x1 ERR_ILLEGAL_CMD: the word is none of the ten commands (R91). -/
  | illegalCmd
  /-- 0x2 ERR_NO_INVERSE: GFINV of 0x00 (R92). -/
  | noInverse
  /-- 0x3 ERR_INDEX_RANGE: RCON of an index of 10 or more (R93). -/
  | indexRange
  /-- 0x4 ERR_TABLE_NOT_READY: a lookup in a table not generated since reset (R94). -/
  | tableNotReady
  deriving DecidableEq, Repr

/-- A response (R46): the status and the data byte. Its 12-bit word is `Response.word`. -/
structure Response where
  st : Status
  data : Byte
  deriving DecidableEq, Repr

/-- What the host does at the ports (R110): one action is one step. -/
inductive HostAction where
  /-- Present a command word, wait, and take its response (R52). -/
  | command (w : CommandWord)
  /-- Assert reset while no command is in flight (R103). -/
  | reset
  /-- Present a command word and, after it was accepted and before its response was delivered, assert reset (R104). -/
  | resetDuring (w : CommandWord)
  deriving DecidableEq, Repr

/-- A memory: pairs of address and byte, addresses strictly rising (`Memory.wf`). An address that is not listed holds no
value (R25, U6; log 3). -/
abbrev Memory := List Host.Cell

/-- The state. The unit's own state is the five items of R14: SBOX, INVSBOX and RCON are the cells 0..255, 256..511 and
512..521 of `mem`, the flat table space (R28); `sv` and `rv` are the valid flags SV and RV (R19). The other three fields are
the instance's configuration (R9) and the step's input and output (R52), which a step of the interface can hold nowhere else
(log 1, log 2). -/
structure State where
  /-- The three tables in the flat table space (R27, R28, R32). -/
  mem : Memory
  /-- SV: SBOX and INVSBOX have been generated since reset (R19). -/
  sv : Bool
  /-- RV: RCON has been generated since reset (R19). -/
  rv : Bool
  /-- The instance's configuration (R9); constant. -/
  config : Config
  /-- What the host will do, first action first (R21, R108). -/
  host : List HostAction
  /-- The responses delivered so far, oldest first (R46, R108). -/
  responses : List Response
  deriving DecidableEq, Repr

/-- The reasons a step stops with a fault. No error of the spec is one: a command that fails answers a status and the unit
goes on (R13, R89). -/
inductive Fault where
  /-- Raised by SBOX, ISBOX and RCON when the valid flag is 1 and the entry at this flat address holds no value. The spec's unit
  has no such state (R15, R16, R18, R24) and no step leads to one. Safe. DESIGN CHOICE, log 3. -/
  | tableEntryUnwritten (addr : Nat)
  deriving DecidableEq, Repr

/-- The reasons a step is refused. -/
inductive Refusal where
  /-- Raised by an arm of `exec` whose instruction has no meaning yet; no arm does. Safe. -/
  | notModelled (mnemonic : String)
  deriving DecidableEq, Repr

/-- The unit right after reset (R25, R105): both flags 0, no table entry holds a value, nothing in progress. The instance is
the default one (D2, log 2); the host has presented nothing and taken nothing (log 1). -/
def State.reset : State :=
  { mem := [], sv := false, rv := false, config := Config.default, host := [], responses := [] }

end Sys2Proof.Machine
end

