-- ==== Sys2Proof/Machine/Flags.lean ====
section
/-! DEFINITION. The valid flags SV and RV (R19), the unit's only flags, and the coding of the status in a response word (R46,
R90). There are no condition codes (R22). -/

namespace Sys2Proof.Machine

/-- SV <- 1 (R69). -/
def State.setSv (s : State) : State := { s with sv := true }

/-- RV <- 1 (R72). -/
def State.setRv (s : State) : State := { s with rv := true }

/-- The field ST of a status (R90). -/
def Status.code : Status → StatusCode
  | .ok => 0x0#4
  | .illegalCmd => 0x1#4
  | .noInverse => 0x2#4
  | .indexRange => 0x3#4
  | .tableNotReady => 0x4#4

/-- The response word RW (R46): ST in bits 11:8, DATA in bits 7:0. -/
def Response.word (r : Response) : ResponseWord := r.st.code ++ r.data

end Sys2Proof.Machine
end

