-- ==== Sys2Proof/Machine/Operands.lean ====
section
/-! DEFINITION. Operand forms: where the three tables lie in the flat table space and the one addressing mode of the lookups
(R28, R32, 42_table_lookup.md): the entry index is field A, unsigned, with no base, offset or scaling. -/

namespace Sys2Proof.Machine

/-- SBOX_N and INVSBOX_N, the entries of a substitution table (R9). -/
def sboxSize : Nat := 256

/-- RCON_N, the entries of the Rcon table (R9). -/
def rconSize : Nat := 10

/-- BLOB_N, the size of the flat table space (R9, R32): addresses of 522 and above do not exist (R33). -/
def flatSize : Nat := 522

/-- The flat address of SBOX[i] (R28). -/
def sboxAddr (i : Byte) : Nat := i.toNat

/-- The flat address of INVSBOX[i] (R28). -/
def invSboxAddr (i : Byte) : Nat := 256 + i.toNat

/-- The flat address of RCON[i] (R28). -/
def rconAddr (i : Nat) : Nat := 512 + i

/-- Whether an index is one of the Rcon table's, 0..9 (R76, R93). -/
def rconIndexLegal (i : Byte) : Bool := i.toNat ≤ 9

/-- Every byte, in ascending order: the indices of a loop for i = 0 to 255. -/
def allBytes : List Byte := (List.range 256).map fun k => BitVec.ofNat 8 k

end Sys2Proof.Machine
end

