-- ==== Sys2Proof/Machine/Ops.lean ====
section
/-! DEFINITION. The named operations: memory, the response of a command, the one way a command fails (R13), and reset. -/

namespace Sys2Proof.Machine

/-- The canonical form of a memory: addresses strictly rising. -/
def Memory.wf : Memory → Bool
  | [] => true
  | [_] => true
  | c :: d :: m => decide (c.1 < d.1) && Memory.wf (d :: m)

/-- The byte at an address, none where nothing is listed: the entry holds no value (R25, U6). -/
def Memory.read : Memory → Nat → Option Byte
  | [], _ => none
  | c :: m, a => if c.1 = a then some c.2 else Memory.read m a

/-- The memory with the byte v at the address a. -/
def Memory.write : Memory → Nat → Byte → Memory
  | [], a, v => [(a, v)]
  | c :: m, a, v =>
    if a < c.1 then (a, v) :: c :: m
    else if a = c.1 then (a, v) :: m
    else c :: Memory.write m a v

/-- MemRead(addr, 1) (R12, R28). -/
def State.memRead (s : State) (addr : Nat) : Option Byte := s.mem.read addr

/-- MemWrite(addr, 1, v) (R12, R28). -/
def State.memWrite (s : State) (addr : Nat) (v : Byte) : State := { s with mem := s.mem.write addr v }

/-- The state after a response is delivered (R46, R52). -/
def State.answered (s : State) (st : Status) (d : Byte) : State :=
  { s with responses := s.responses ++ [{ st := st, data := d }] }

/-- respond(st, d) (R12): complete the command by delivering its response. -/
def respond (st : Status) (d : Byte) (s : State) : Host.Outcome State Fault Refusal := .next (s.answered st d)

/-- raise st (R13), the only way a command fails: the response carries the status and DATA 0x00, and no state changes (R89,
R96). There is no trap entry and no return from one (R98, R99). -/
def raise (st : Status) (s : State) : Host.Outcome State Fault Refusal := respond st 0x00#8 s

/-- The response to a lookup at a flat address (R74, R75, R76): MemRead of one byte. -/
def respondEntry (addr : Nat) (s : State) : Host.Outcome State Fault Refusal :=
  match s.memRead addr with
  | some d => respond .ok d s
  | none => .fault (.tableEntryUnwritten addr)

/-- Reset (R25, R103, R105): both flags 0, no table entry holds a value. The configuration, what the host will do next and what
it has already taken are not the unit's, and stay (log 7). -/
def State.resetUnit (s : State) : State :=
  { State.reset with config := s.config, host := s.host, responses := s.responses }

end Sys2Proof.Machine
end

