-- ==== Sys2Proof/Machine/Arithmetic.lean ====
section
/-! DEFINITION. The field-arithmetic commands (R56, R58, R60, R62, R64). They read and write no table and no flag (R67). -/

namespace Sys2Proof.Machine

/-- XTIME a (R56). -/
def execXtime (a : Byte) (s : State) : Host.Outcome State Fault Refusal := respond .ok (xtime a) s

/-- GFMUL a, b (R58). It cannot fail. -/
def execGfmul (a b : Byte) (s : State) : Host.Outcome State Fault Refusal := respond .ok (gfmul a b) s

/-- GFINV a (R60, R92): 0x00 has no inverse. -/
def execGfinv (a : Byte) (s : State) : Host.Outcome State Fault Refusal :=
  if a = 0x00#8 then raise .noInverse s else respond .ok (gfinv a) s

/-- ROTL8 x, s (R62). -/
def execRotl8 (x : Byte) (sh : Shift) (s : State) : Host.Outcome State Fault Refusal := respond .ok (rotl8 x sh) s

/-- AFFINE x (R64). -/
def execAffine (x : Byte) (s : State) : Host.Outcome State Fault Refusal := respond .ok (affine x) s

end Sys2Proof.Machine
end

