-- ==== Sys2Proof/Machine/Generation.lean ====
section
/-! DEFINITION. The generation commands GENSBOX and GENRCON (R69, R72), the only writers of the unit's state (R24). -/

namespace Sys2Proof.Machine

/-- The two writes of index i (R68): SBOX[i] <- s[i], and INVSBOX[s[i]] <- i. The inverse table is built "Simultaneously", as
R68 allows (log 9). -/
def writeSboxPair (m : Memory) (i : Byte) : Memory :=
  (m.write (sboxAddr i) (sboxEntry i)).write (invSboxAddr (sboxEntry i)) i

/-- All 512 writes of GENSBOX (R68, R69), for i = 0 to 255. Irreducible, so that no proof unrolls them by accident:
Laws/Generation.lean says what they do. -/
@[irreducible] def writeSboxTables (m : Memory) : Memory := allBytes.foldl writeSboxPair m

/-- The write of one Rcon entry (R72). -/
def writeRconEntry (seed : Byte) (m : Memory) (i : Nat) : Memory := m.write (rconAddr i) (rconEntry seed i)

/-- All ten writes of GENRCON (R71, R72), for i = 0 to 9. -/
@[irreducible] def writeRconTable (seed : Byte) (m : Memory) : Memory := (List.range rconSize).foldl (writeRconEntry seed) m

/-- The tables SBOX and INVSBOX generated (R68). -/
def State.genSboxTables (s : State) : State := { s with mem := writeSboxTables s.mem }

/-- The table RCON generated from the instance's seed (R71). -/
def State.genRconTable (s : State) : State := { s with mem := writeRconTable s.config.rconSeed s.mem }

/-- GENSBOX (R69): the tables SBOX and INVSBOX, then SV <- 1, in one step (R36). -/
def execGensbox (s : State) : Host.Outcome State Fault Refusal := respond .ok 0x00#8 s.genSboxTables.setSv

/-- GENRCON (R72): the table RCON, then RV <- 1, in one step (R36). -/
def execGenrcon (s : State) : Host.Outcome State Fault Refusal := respond .ok 0x00#8 s.genRconTable.setRv

end Sys2Proof.Machine
end

