-- ==== Sys2Proof/Machine/Lookup.lean ====
section
/-! DEFINITION. The lookup commands SBOX, ISBOX and RCON (R74, R75, R76), the unit's only loads. They write nothing (R31). -/

namespace Sys2Proof.Machine

/-- SBOX i (R74). -/
def execSbox (i : Byte) (s : State) : Host.Outcome State Fault Refusal :=
  match s.sv with
  | true => respondEntry (sboxAddr i) s
  | false => raise .tableNotReady s

/-- ISBOX i (R75). The flag is SBOX's (R17). -/
def execIsbox (i : Byte) (s : State) : Host.Outcome State Fault Refusal :=
  match s.sv with
  | true => respondEntry (invSboxAddr i) s
  | false => raise .tableNotReady s

/-- RCON i (R76): the index is checked before the flag (R95). -/
def execRcon (i : Byte) (s : State) : Host.Outcome State Fault Refusal :=
  if rconIndexLegal i then
    match s.rv with
    | true => respondEntry (rconAddr i.toNat) s
    | false => raise .tableNotReady s
  else raise .indexRange s

end Sys2Proof.Machine
end

