-- ==== Sys2Proof/Machine/Dispatch.lean ====
section
/-! DEFINITION. The dispatch: one arm for each command. -/

namespace Sys2Proof.Machine

def exec (i : Instr) (s : State) : Host.Outcome State Fault Refusal :=
  match i with
  | .xtime a => Sys2Proof.Machine.execXtime a s
  | .gfmul a b => Sys2Proof.Machine.execGfmul a b s
  | .gfinv a => Sys2Proof.Machine.execGfinv a s
  | .rotl8 x sh => Sys2Proof.Machine.execRotl8 x sh s
  | .affine x => Sys2Proof.Machine.execAffine x s
  | .gensbox => Sys2Proof.Machine.execGensbox s
  | .genrcon => Sys2Proof.Machine.execGenrcon s
  | .sbox k => Sys2Proof.Machine.execSbox k s
  | .isbox k => Sys2Proof.Machine.execIsbox k s
  | .rcon k => Sys2Proof.Machine.execRcon k s

end Sys2Proof.Machine
end

