-- ==== Sys2Proof/Machine/Transact.lean ====
section
/-! DEFINITION. The command transaction (R52) and the other things a host can do (R110). -/

namespace Sys2Proof.Machine

/-- An illegal word is executed as raise ERR_ILLEGAL_CMD (R45, R91). -/
def execIllegal (s : State) : Host.Outcome State Fault Refusal := raise .illegalCmd s

/-- The transaction step(state, w) (R52): decode the word, perform the rule of the command, deliver one response. -/
def transact (w : CommandWord) (s : State) : Host.Outcome State Fault Refusal :=
  match decode w with
  | .command i => exec i s
  | .illegal _ => execIllegal s

/-- One action of the host. A command whose transaction reset interrupts is abandoned: no response, and the reset state
whatever the command had written (R104). -/
def perform (a : HostAction) (s : State) : Host.Outcome State Fault Refusal :=
  match a with
  | .command w => transact w s
  | .reset => .next s.resetUnit
  | .resetDuring _ => .next s.resetUnit

/-- A list of command words, each presented after the response to the one before (R108). -/
def transactAll : List CommandWord → State → Host.Outcome State Fault Refusal
  | [], s => .next s
  | w :: ws, s =>
    match transact w s with
    | .next t => transactAll ws t
    | .fault r => .fault r
    | .refused r => .refused r

end Sys2Proof.Machine
end

