-- ==== Sys2Proof/Machine/Step.lean ====
section
/-! DEFINITION. One step: the host's next action. -/

namespace Sys2Proof.Machine

/-- The state once the host's next action is taken from the list, the rest of the list being `rest`. -/
def State.withHost (s : State) (rest : List HostAction) : State := { s with host := rest }

/-- One step: the host's next action is performed. Where the host does nothing, the unit does nothing (R110; log 5). -/
def step (s : State) : Host.Outcome State Fault Refusal :=
  match s.host with
  | [] => .next s
  | a :: rest => perform a (s.withHost rest)

/-- The state in which the next thing the host does is to present the word w of the opcode table (log 6). -/
def State.withFetchWord (s : State) (nbits w : Nat) : State :=
  s.withHost (.command (tableWord nbits w) :: s.host)

/-- The state in which the host presents these command words before anything else (R108). -/
def State.withCommands (s : State) (ws : List CommandWord) : State :=
  s.withHost (ws.map HostAction.command ++ s.host)

end Sys2Proof.Machine
end

