-- ==== Sys2Proof/Machine/Assembler.lean ====
section
/-! DEFINITION. The assembler notation as text (R49): reading a line, and writing a command and a response. -/

namespace Sys2Proof.Machine

/-- The value of a hexadecimal digit, of either case. -/
def hexDigitValue (c : Char) : Option Nat :=
  ("0123456789ABCDEF".toList.idxOf? c).or ("0123456789abcdef".toList.idxOf? c)

/-- The value of a decimal digit. -/
def decimalDigitValue (c : Char) : Option Nat := "0123456789".toList.idxOf? c

/-- The number written by these digits, the first the most significant, after a number already read. -/
def digitsValue (base : Nat) (digit : Char → Option Nat) : Nat → List Char → Option Nat
  | n, [] => some n
  | n, c :: cs =>
    match digit c with
    | some d => digitsValue base digit (n * base + d) cs
    | none => none

/-- An operand: `0x` and hexadecimal digits, or decimal digits where the notation allows them. -/
def operandValue (decimalAllowed : Bool) : List Char → Option Nat
  | '0' :: 'x' :: c :: cs => digitsValue 16 hexDigitValue 0 (c :: cs)
  | c :: cs => if decimalAllowed then digitsValue 10 decimalDigitValue 0 (c :: cs) else none
  | [] => none

/-- The characters of a line before its comment. -/
def beforeComment (line : List Char) : List Char := line.takeWhile (· ≠ ';')

/-- The text without the spaces around it. -/
def trimSpaces (text : List Char) : List Char :=
  ((text.dropWhile (· = ' ')).reverse.dropWhile (· = ' ')).reverse

/-- The pieces of a text between its commas. -/
def splitAtCommas : List Char → List (List Char)
  | [] => [[]]
  | c :: cs =>
    match splitAtCommas cs with
    | piece :: pieces => if c = ',' then [] :: piece :: pieces else (c :: piece) :: pieces
    | [] => [[c]]

/-- The operands written after the mnemonic, none written where there is nothing. -/
def operandTexts (text : List Char) : List (List Char) :=
  match trimSpaces text with
  | [] => []
  | c :: cs => (splitAtCommas (c :: cs)).map trimSpaces

/-- What reading a line of text gives. -/
inductive ReadLine where
  /-- Nothing before the comment. -/
  | blank
  /-- A line of the notation; whether it can be assembled is `SourceLine.wellFormed`. -/
  | line (l : SourceLine)
  /-- Not a line of the notation. -/
  | refused
  deriving DecidableEq, Repr

/-- The line of a mnemonic and its operands. -/
def lineOf (mnemonic : List Char) (operands : List (List Char)) : Option SourceLine :=
  match operands with
  | [] =>
    if mnemonic = "GENSBOX".toList then some .gensbox
    else if mnemonic = "GENRCON".toList then some .genrcon
    else none
  | [x] =>
    if mnemonic = "XTIME".toList then (operandValue false x).map .xtime
    else if mnemonic = "GFINV".toList then (operandValue false x).map .gfinv
    else if mnemonic = "AFFINE".toList then (operandValue false x).map .affine
    else if mnemonic = "SBOX".toList then (operandValue false x).map .sbox
    else if mnemonic = "ISBOX".toList then (operandValue false x).map .isbox
    else if mnemonic = "RCON".toList then (operandValue true x).map .rcon
    else if mnemonic = ".word".toList then (operandValue false x).map .word
    else none
  | [x, y] =>
    match operandValue false x with
    | none => none
    | some a =>
      if mnemonic = "GFMUL".toList then (operandValue false y).map (.gfmul a)
      else if mnemonic = "ROTL8".toList then (operandValue true y).map (.rotl8 a)
      else none
  | _ => none

/-- Reading one line (R49). Extra spaces and the number of hexadecimal digits are not held against it, and the response R49 writes
after `->` is no part of a line: outside a comment it makes the line refused. DESIGN CHOICE, log 15. -/
def readLine (text : List Char) : ReadLine :=
  match trimSpaces (beforeComment text) with
  | [] => .blank
  | c :: cs =>
    let mnemonic := (c :: cs).takeWhile (· ≠ ' ')
    let rest := (c :: cs).dropWhile (· ≠ ' ')
    match lineOf mnemonic (operandTexts rest) with
    | some l => .line l
    | none => .refused

/-- A hexadecimal digit, upper case. -/
def hexDigit (n : BitVec 4) : Char := "0123456789ABCDEF".toList.getD n.toNat '0'

/-- A byte, written `0x` and two hexadecimal digits (R49). -/
def hexByte (b : Byte) : List Char := ['0', 'x', hexDigit (b.extractLsb' 4 4), hexDigit (b.extractLsb' 0 4)]

/-- A number, written in decimal, as R49 allows for the rotation amount of ROTL8 and the index of RCON. -/
def writeDecimal (n : Nat) : List Char := Nat.toDigits 10 n

/-- Any command word, legal or not, written `.word` and six hexadecimal digits (R49). -/
def writeWord (w : CommandWord) : List Char :=
  ".word 0x".toList ++
    [hexDigit (w.extractLsb' 20 4), hexDigit (w.extractLsb' 16 4), hexDigit (w.extractLsb' 12 4),
      hexDigit (w.extractLsb' 8 4), hexDigit (w.extractLsb' 4 4), hexDigit (w.extractLsb' 0 4)]

/-- A command with one operand, written. -/
def writeOne (mnemonic : String) (a : Byte) : List Char := mnemonic.toList ++ ' ' :: hexByte a

/-- A command with two operands, written. -/
def writeTwo (mnemonic : String) (a b : Byte) : List Char := mnemonic.toList ++ ' ' :: hexByte a ++ ',' :: ' ' :: hexByte b

/-- A command, written (R49). -/
def writeCommand : Instr → List Char
  | .xtime a => writeOne "XTIME" a
  | .gfmul a b => writeTwo "GFMUL" a b
  | .gfinv a => writeOne "GFINV" a
  | .rotl8 x s => writeTwo "ROTL8" x (0#5 ++ s)
  | .affine x => writeOne "AFFINE" x
  | .gensbox => "GENSBOX".toList
  | .genrcon => "GENRCON".toList
  | .sbox i => writeOne "SBOX" i
  | .isbox i => writeOne "ISBOX" i
  | .rcon i => writeOne "RCON" i

/-- The name of a status (R90). -/
def Status.name : Status → String
  | .ok => "OK"
  | .illegalCmd => "ERR_ILLEGAL_CMD"
  | .noInverse => "ERR_NO_INVERSE"
  | .indexRange => "ERR_INDEX_RANGE"
  | .tableNotReady => "ERR_TABLE_NOT_READY"

/-- A response, written after `->` (R49): the status name and, when the status is OK, the data byte. -/
def writeResponse (r : Response) : List Char :=
  if r.st = .ok then r.st.name.toList ++ ' ' :: hexByte r.data else r.st.name.toList

end Sys2Proof.Machine
end

