-- ==== Sys2Proof/Machine/Codec.lean ====
section
/-! DEFINITION. The host-side contract: the table codec (R79, R80, R82) and the error kinds of the host's software (R100). None
of it is a command of the unit (R78). -/

namespace Sys2Proof.Machine

/-- The tables as the host holds them (45_host_codec_verifier.md): 256, 256 and 10 bytes. -/
structure Tables where
  sbox : Vector Byte 256
  inverseSbox : Vector Byte 256
  rcon : Vector Byte 10
  deriving DecidableEq, Repr

/-- The three tables by name, in the order of the blob (R79, R85). -/
inductive TableName where
  | sbox
  | inverseSbox
  | rcon
  deriving DecidableEq, Repr

/-- The error kinds of the host's software (R100). The unit raises none of them. -/
inductive ErrorKind where
  | fileOpenFailure
  | directoryCreateFailure
  | truncatedInput
  | fieldValueOutOfRange
  | bijectionViolation
  | roundTripMismatch
  deriving DecidableEq, Repr

/-- What an error kind leads to (R100). -/
inductive Consequence where
  /-- Logged, the operation aborted, no retry. -/
  | operationAborted
  /-- Fatal: the process is terminated. -/
  | processTerminated
  /-- Reported, decode aborts, no partial table returned. -/
  | decodeAborted
  /-- It must fail loudly. -/
  | failsLoudly
  /-- Reported with the offending index and values; not fatal, but surfaced to the caller. -/
  | reportedNotFatal
  deriving DecidableEq, Repr

/-- The consequence of each kind (R100). -/
def ErrorKind.consequence : ErrorKind → Consequence
  | .fileOpenFailure => .operationAborted
  | .directoryCreateFailure => .processTerminated
  | .truncatedInput => .decodeAborted
  | .fieldValueOutOfRange => .failsLoudly
  | .bijectionViolation => .reportedNotFatal
  | .roundTripMismatch => .reportedNotFatal

/-- encode (R80): 522 bytes, the S-box, the inverse S-box, Rcon, one byte per entry. -/
def Tables.encode (t : Tables) : List Byte := t.sbox.toList ++ t.inverseSbox.toList ++ t.rcon.toList

/-- What decode answers (R82). -/
inductive DecodeResult where
  | tables (t : Tables)
  | error (e : ErrorKind)
  deriving DecidableEq, Repr

/-- The n entries of the blob from an offset on. -/
def sliceOf (blob : List Byte) (off n : Nat) (h : off + n ≤ blob.length) : Vector Byte n :=
  Vector.ofFn fun i : Fin n => blob[off + i.val]

/-- decode (R82): TruncatedInput on a blob shorter than 522 bytes; else the slices [0,256), [256,512), [512,522). Bytes after
those are ignored. -/
def decodeBlob (blob : List Byte) : DecodeResult :=
  if h : blob.length < 522 then .error .truncatedInput
  else .tables
    { sbox := sliceOf blob 0 256 (by omega)
      inverseSbox := sliceOf blob 256 256 (by omega)
      rcon := sliceOf blob 512 10 (by omega) }

end Sys2Proof.Machine
end

