-- ==== Sys2Proof/Machine/Verifier.lean ====
section
/-! DEFINITION. The host-side contract: the verifier (R84, R85). A check answers a Bool; its report is what the check recommends
to give with a failure (U16; DESIGN CHOICE, log 16). -/

namespace Sys2Proof.Machine

/-- BijectionViolation: the first failing index and both values (R84). -/
structure BijectionReport where
  index : Nat
  image : Byte
  back : Byte
  deriving DecidableEq, Repr

/-- RoundTripMismatch: the table, the index, the original's byte and the decoded one (R85). -/
structure MismatchReport where
  table : TableName
  index : Nat
  expected : Byte
  actual : Byte
  deriving DecidableEq, Repr

/-- The violation at one index, if there is one: inverseSbox[sbox[i]] is not i (R84). -/
def bijectionViolationAt (sbox inverseSbox : Vector Byte 256) (i : Fin 256) : Option BijectionReport :=
  let v := sbox[i]
  let b := inverseSbox[v.toFin]
  if b.toNat = i.val then none else some { index := i.val, image := v, back := b }

/-- The first violation, indices in ascending order (R84). -/
def firstBijectionViolation (sbox inverseSbox : Vector Byte 256) : Option BijectionReport :=
  (List.finRange 256).findSome? (bijectionViolationAt sbox inverseSbox)

/-- checkBijection (R84). -/
def checkBijection (sbox inverseSbox : Vector Byte 256) : Bool :=
  (firstBijectionViolation sbox inverseSbox).isNone

/-- The mismatch of one table at one index, if there is one (R85). -/
def mismatchAt {n : Nat} (name : TableName) (original decoded : Vector Byte n) (i : Fin n) : Option MismatchReport :=
  if original[i] = decoded[i] then none
  else some { table := name, index := i.val, expected := original[i], actual := decoded[i] }

/-- The first mismatch of one table, indices in ascending order (R85). -/
def firstMismatchIn {n : Nat} (name : TableName) (original decoded : Vector Byte n) : Option MismatchReport :=
  (List.finRange n).findSome? (mismatchAt name original decoded)

/-- The first mismatch, the tables in the order sbox, inverseSbox, rcon (R85, D22). -/
def firstMismatch (original decoded : Tables) : Option MismatchReport :=
  (firstMismatchIn .sbox original.sbox decoded.sbox).or
    ((firstMismatchIn .inverseSbox original.inverseSbox decoded.inverseSbox).or
      (firstMismatchIn .rcon original.rcon decoded.rcon))

/-- checkRoundTrip (R85). -/
def checkRoundTrip (original decoded : Tables) : Bool := (firstMismatch original decoded).isNone

end Sys2Proof.Machine
end

