-- ==== Sys2Proof/Machine/Pipeline.lean ====
section
/-! DEFINITION. The host-side contract: reading the tables out of the unit (R81) and the host's one sequence (R86), up to its
storage and console, which are outside (R6, R87). -/

namespace Sys2Proof.Machine

/-- The 522 lookups in ascending flat address (R81). -/
def readOutCommands : List CommandWord :=
  allBytes.map (fun i => encode (.sbox i)) ++ allBytes.map (fun i => encode (.isbox i)) ++
    (List.range rconSize).map (fun i => encode (.rcon (BitVec.ofNat 8 i)))

/-- The DATA bytes of a list of responses, none if any status is not OK: then no blob is formed (R81). -/
def blobOf : List Response → Option (List Byte)
  | [] => some []
  | r :: rs => if r.st = .ok then (blobOf rs).map (r.data :: ·) else none

/-- The responses a state has delivered beyond the first n. -/
def State.responsesFrom (s : State) (n : Nat) : List Response := s.responses.drop n

/-- The blob the host reads out of the unit, and the unit's state afterwards (R81). -/
def readOut (s : State) : Option (List Byte × State) :=
  match transactAll readOutCommands s with
  | .next t => (blobOf (t.responsesFrom s.responses.length)).map (·, t)
  | _ => none

/-- What the verifying end of the sequence reports: the two checks (R86). -/
structure Verdict where
  bijection : Bool
  roundTrip : Bool
  deriving DecidableEq, Repr

/-- The checks on the tables generated and the tables decoded (R86). -/
def verify (generated decoded : Tables) : Verdict :=
  { bijection := checkBijection generated.sbox generated.inverseSbox
    roundTrip := checkRoundTrip generated decoded }

/-- How the host's sequence ends (R86: "run to completion or fail outright"). -/
inductive PipelineResult where
  /-- Both checks were made. -/
  | verified (v : Verdict)
  /-- A stage of the host's failed with one of its error kinds (R100). -/
  | failed (e : ErrorKind)
  /-- The unit answered a status other than OK where the sequence needs OK, or stopped. -/
  | unitFailed
  deriving DecidableEq, Repr

/-- The host's sequence generate, write, read, verify (R86): GENSBOX, GENRCON, the read-out, encode, `store` for storage written
and read back, which may fail, decode, the two checks. DESIGN CHOICE, log 11. -/
def pipeline (store : List Byte → Except ErrorKind (List Byte)) (s : State) : PipelineResult :=
  match transactAll [encode .gensbox, encode .genrcon] s with
  | .next t =>
    match readOut t with
    | some (blob, _) =>
      match decodeBlob blob with
      | .tables generated =>
        match store generated.encode with
        | .ok bytes =>
          match decodeBlob bytes with
          | .tables decoded => .verified (verify generated decoded)
          | .error e => .failed e
        | .error e => .failed e
      | .error e => .failed e
    | none => .unitFailed
  | _ => .unitFailed

end Sys2Proof.Machine
end

