-- ==== Sys2Proof/Machine/Ports.lean ====
section
/-! DEFINITION. The unit at its ports, one rising edge of clk at a time (R51, R52, R103, R104). The spec's step is the
transaction (R52) and a model need not go below it; this file does, so that the handshake, the reset input and the unspecified
latency (R109) can be spoken of, and so that the transaction can be shown to be what the ports carry. -/

namespace Sys2Proof.Machine

/-- What the unit is doing between two edges (R25, R52). -/
inductive Phase where
  /-- Idle and ready. -/
  | idle
  /-- The command word was accepted and is being executed. -/
  | busy (w : CommandWord)
  /-- The response to the command is presented; the state is the one its delivery leaves. -/
  | answering (w : CommandWord) (t : State)
  deriving DecidableEq, Repr

/-- The unit at its ports: its state between commands and its phase. -/
structure ClockedUnit where
  unit : State
  phase : Phase
  deriving DecidableEq, Repr

/-- The input ports in one cycle (R51), and whether the unit finishes the command it is executing in this cycle: the latency
is unspecified (R109), so a cycle takes it as an input (log 8). -/
structure PortsIn where
  rst : Bool
  cmdValid : Bool
  cmd : CommandWord
  rspReady : Bool
  finishes : Bool
  deriving DecidableEq, Repr

/-- The output port cmd_ready (R51, R52, R103): the unit can accept a command this cycle. -/
def ClockedUnit.cmdReady (c : ClockedUnit) (i : PortsIn) : Bool :=
  !i.rst && match c.phase with
    | .idle => true
    | .busy _ => false
    | .answering _ _ => false

/-- The output ports rsp_valid and rsp (R51, R103): the response word presented, none while rsp_valid is 0. -/
def ClockedUnit.rsp (c : ClockedUnit) (i : PortsIn) : Option ResponseWord :=
  if i.rst then none
  else match c.phase with
    | .idle => none
    | .busy _ => none
    | .answering _ t => t.responses.getLast?.map Response.word

/-- A command is accepted in a cycle in which cmd_valid and cmd_ready are both 1 (R51). -/
def ClockedUnit.accepts (c : ClockedUnit) (i : PortsIn) : Bool := i.cmdValid && c.cmdReady i

/-- A response is delivered in a cycle in which rsp_valid and rsp_ready are both 1 (R51). -/
def ClockedUnit.delivers (c : ClockedUnit) (i : PortsIn) : Bool := i.rspReady && (c.rsp i).isSome

/-- The end of a command's execution (R52): its transaction's state and response. A transaction that faults leaves the unit
busy for good; no unit that keeps the invariant does (log 3). -/
def ClockedUnit.finish (c : ClockedUnit) (w : CommandWord) : ClockedUnit :=
  match transact w c.unit with
  | .next t => { c with phase := .answering w t }
  | .fault _ => c
  | .refused _ => c

/-- One rising edge of clk (R51, R52, R103, R104). Reset comes before everything else: the command in flight is abandoned
whatever it had done. -/
def ClockedUnit.cycle (c : ClockedUnit) (i : PortsIn) : ClockedUnit :=
  if i.rst then { unit := c.unit.resetUnit, phase := .idle }
  else match c.phase with
    | .idle => if c.accepts i then { c with phase := .busy i.cmd } else c
    | .busy w => if i.finishes then c.finish w else c
    | .answering _ t => if c.delivers i then { unit := t, phase := .idle } else c

/-- The unit after a list of cycles. -/
def ClockedUnit.cycles : ClockedUnit → List PortsIn → ClockedUnit
  | c, [] => c
  | c, i :: is => ClockedUnit.cycles (c.cycle i) is

/-- The command words accepted in a list of cycles, in order (R52). -/
def ClockedUnit.accepted : ClockedUnit → List PortsIn → List CommandWord
  | _, [] => []
  | c, i :: is =>
    let later := ClockedUnit.accepted (c.cycle i) is
    if c.accepts i then i.cmd :: later else later

/-- The response words delivered in a list of cycles, in order (R51). -/
def ClockedUnit.delivered : ClockedUnit → List PortsIn → List ResponseWord
  | _, [] => []
  | c, i :: is =>
    let later := ClockedUnit.delivered (c.cycle i) is
    if c.delivers i then
      match c.rsp i with
      | some r => r :: later
      | none => later
    else later

/-- The command in flight: accepted and not yet answered; one at most (R52). -/
def Phase.inFlight : Phase → List CommandWord
  | .idle => []
  | .busy w => [w]
  | .answering w _ => [w]

end Sys2Proof.Machine
end

