-- ==== Sys2Proof/Safety.lean ====
section
/-! DEFINITION. What the statements speak of: the invariant of the unit's state, the frame of a command, and the product of
polynomials that multiplication is held against. -/

namespace Sys2Proof.Machine

/-- The invariant of the state. A table whose flag is 1 holds exactly the generated values (R15, R16, R18, R24); a table whose
flag is 0 holds no value (R25, U6); memory is canonical and lists no address of 522 or above (R33). -/
structure State.Inv (s : State) : Prop where
  wf : s.mem.wf = true
  inFlatSpace : ∀ c ∈ s.mem, c.1 < flatSize
  sboxHeld : s.sv = true → ∀ i : Byte, s.memRead (sboxAddr i) = some (sboxEntry i)
  invSboxHeld : s.sv = true → ∀ i : Byte, s.memRead (invSboxAddr (sboxEntry i)) = some i
  sboxAbsent : s.sv = false → ∀ a < 512, s.memRead a = none
  rconHeld : s.rv = true → ∀ i < rconSize, s.memRead (rconAddr i) = some (rconEntry s.config.rconSeed i)
  rconAbsent : s.rv = false → ∀ i < rconSize, s.memRead (rconAddr i) = none

/-- The substitution tables, their flag and every byte of both read the same (the frame of a command that does not generate
them). -/
def State.sameSbox (s t : State) : Prop := t.sv = s.sv ∧ ∀ a < 512, t.memRead a = s.memRead a

/-- The Rcon table and its flag read the same, and so does every address above the substitution tables. -/
def State.sameRcon (s t : State) : Prop := t.rv = s.rv ∧ ∀ a, 512 ≤ a → t.memRead a = s.memRead a

/-- What no command of the unit touches: its configuration (R23) and what the host will do next (R21). -/
def State.sameSurroundings (s t : State) : Prop := t.config = s.config ∧ t.host = s.host

/-- The state t differs from s in the delivery of this one response and in nothing else, said field by field and byte by
byte. -/
def State.onlyAnswered (s t : State) (st : Status) (d : Byte) : Prop :=
  t.responses = s.responses ++ [{ st := st, data := d }] ∧ s.sameSbox t ∧ s.sameRcon t ∧ s.sameSurroundings t

/-- The response a state delivered last. -/
def State.lastResponse (s : State) : Option Response := s.responses.getLast?

/-- The carry-less product of a and b, on 16 bits: the XOR of a shifted left by i over the bits i set in b. For two bytes it is
the product of the polynomials (R54, R57), of degree at most 14. -/
def clmul (a b : BitVec 16) : BitVec 16 :=
  (List.range 16).foldl (fun p i => if b.getLsbD i then p ^^^ (a <<< i) else p) 0#16

/-- POLY, x^8+x^4+x^3+x+1 (R9, R54). -/
def reductionPolynomial : BitVec 16 := 0x11B#16

/-- f applied n times to a. -/
def applyTimes {α : Type} (f : α → α) : Nat → α → α
  | 0, a => a
  | n + 1, a => f (applyTimes f n a)

/-- The transaction of this word delivers a response of this status. -/
def answersStatus (w : CommandWord) (s : State) (st : Status) : Prop :=
  ∃ t d, transact w s = .next t ∧ t.responses = s.responses ++ [{ st := st, data := d }]

/-- The command completes with this response and no other effect. -/
def completesWith (i : Instr) (s : State) (st : Status) (d : Byte) : Prop :=
  ∃ t, exec i s = .next t ∧ s.onlyAnswered t st d

/-- The state of a list of commands is reached with these responses, one per command and in order (R108). -/
def runsTo (ws : List CommandWord) (s t : State) (rs : List Response) : Prop :=
  transactAll ws s = .next t ∧ t.responses = s.responses ++ rs ∧ rs.length = ws.length

/-- A unit at its ports that any cycles can show: a response it presents is that of the command accepted. -/
def ClockedUnit.consistent (c : ClockedUnit) : Prop :=
  c.unit.Inv ∧ ∀ w t, c.phase = .answering w t → transact w c.unit = .next t

/-- The tables of a state, read through memory, are these: the triple a host would hold. -/
def State.holdsTables (s : State) (t : Tables) : Prop :=
  (∀ i : Fin 256, s.memRead i.val = some t.sbox[i]) ∧
  (∀ i : Fin 256, s.memRead (256 + i.val) = some t.inverseSbox[i]) ∧
  (∀ i : Fin 10, s.memRead (512 + i.val) = some t.rcon[i])

end Sys2Proof.Machine
end

