-- ==== Sys2Proof/Certificates/Slice0/Obligations.lean ====
section
/-! DEFINITION. The statements for the provers, each from a rule of the spec. -/

open Sys2Proof Sys2Proof.Machine

/-! ## Encoding -/

/-- One word of every command, and illegal words, written out bit by bit from the patterns of R42, decode to what they stand
for. -/
def Obligations.WordsWrittenOutDecode : Prop :=
  decode 0b00000001_01010111_00000000#24 = .command (.xtime 0x57#8) ∧
  decode 0b00000010_01010111_10000011#24 = .command (.gfmul 0x57#8 0x83#8) ∧
  decode 0b00000011_01010011_00000000#24 = .command (.gfinv 0x53#8) ∧
  decode 0b00000100_11001010_00000111#24 = .command (.rotl8 0xCA#8 7#3) ∧
  decode 0b00000101_11001010_00000000#24 = .command (.affine 0xCA#8) ∧
  decode 0b00000110_00000000_00000000#24 = .command .gensbox ∧
  decode 0b00000111_00000000_00000000#24 = .command .genrcon ∧
  decode 0b00001000_01010011_00000000#24 = .command (.sbox 0x53#8) ∧
  decode 0b00001001_11101101_00000000#24 = .command (.isbox 0xED#8) ∧
  decode 0b00001010_00001001_00000000#24 = .command (.rcon 9#8) ∧
  decode 0b00000000_00000000_00000000#24 = .illegal .reservedOpcode ∧
  decode 0b00000100_11001010_00001000#24 = .illegal .mustBeZero

/-- Decoding is total, by the cases of R45, which the spec marks as derived from R39 to R44; an illegal word is answered
ERR_ILLEGAL_CMD; the fields lie where R39 puts them; encoding and decoding are inverse. -/
def Obligations.DecodeIsTotalAndEncodeInvertsIt : Prop :=
  (∀ op a b : Byte, (commandWord op a b).toNat = op.toNat * 2 ^ 16 + a.toNat * 2 ^ 8 + b.toNat) ∧
  (∀ w, w = commandWord (opField w) (aField w) (bField w)) ∧
  (∀ a b, decode (commandWord 0x01#8 a b) = if b = 0#8 then .command (.xtime a) else .illegal .mustBeZero) ∧
  (∀ a b, decode (commandWord 0x02#8 a b) = .command (.gfmul a b)) ∧
  (∀ a b, decode (commandWord 0x03#8 a b) = if b = 0#8 then .command (.gfinv a) else .illegal .mustBeZero) ∧
  (∀ a b, decode (commandWord 0x04#8 a b) =
    if b.toNat < 8 then .command (.rotl8 a (BitVec.ofNat 3 b.toNat)) else .illegal .mustBeZero) ∧
  (∀ a b, decode (commandWord 0x05#8 a b) = if b = 0#8 then .command (.affine a) else .illegal .mustBeZero) ∧
  (∀ a b, decode (commandWord 0x06#8 a b) =
    if a = 0#8 ∧ b = 0#8 then .command .gensbox else .illegal .mustBeZero) ∧
  (∀ a b, decode (commandWord 0x07#8 a b) =
    if a = 0#8 ∧ b = 0#8 then .command .genrcon else .illegal .mustBeZero) ∧
  (∀ a b, decode (commandWord 0x08#8 a b) = if b = 0#8 then .command (.sbox a) else .illegal .mustBeZero) ∧
  (∀ a b, decode (commandWord 0x09#8 a b) = if b = 0#8 then .command (.isbox a) else .illegal .mustBeZero) ∧
  (∀ a b, decode (commandWord 0x0A#8 a b) = if b = 0#8 then .command (.rcon a) else .illegal .mustBeZero) ∧
  (∀ op a b : Byte, op = 0x00#8 ∨ 0x0B ≤ op.toNat → decode (commandWord op a b) = .illegal .reservedOpcode) ∧
  (∀ w why s, decode w = .illegal why → ∃ t, transact w s = .next t ∧ s.onlyAnswered t .illegalCmd 0x00#8) ∧
  (∀ i, decode (encode i) = .command i) ∧
  (∀ w i, decode w = .command i → encode i = w)

/-- R42: a word is a row's command exactly when its bits under the mask are the row's match; the ten patterns are disjoint; the
legal words are the words of the ten rows. -/
def Obligations.OpcodeMapSelectsTheCommand : Prop :=
  (∀ r ∈ opcodeTable, ∀ w, w &&& r.mask = r.matchBits ↔ ∃ i, decode w = .command i ∧ i.mnemonic = r.mnemonic) ∧
  (∀ r ∈ opcodeTable, ∀ q ∈ opcodeTable, ∀ w, w &&& r.mask = r.matchBits → w &&& q.mask = q.matchBits → r = q) ∧
  (∀ w, (∃ i, decode w = .command i) ↔ ∃ r ∈ opcodeTable, w &&& r.mask = r.matchBits) ∧
  (∀ r ∈ opcodeTable, r.matchBits = commandWord r.opcode 0x00#8 0x00#8 ∧
    r.mask = match r.format with
      | .n => commandWord 0xFF#8 0xFF#8 0xFF#8
      | .u => commandWord 0xFF#8 0x00#8 0xFF#8
      | .s => commandWord 0xFF#8 0x00#8 0xF8#8
      | .m => commandWord 0xFF#8 0x00#8 0x00#8)

/-- R43: a word with a reserved opcode is answered ERR_ILLEGAL_CMD whatever A and B hold, the all-zero word among them; every
word is exactly one command or illegal; none is a no-op, since every transaction delivers a response. -/
def Obligations.ReservedOpcodesAreIllegal : Prop :=
  (∀ (op a b : Byte) (s : State), op = 0x00#8 ∨ 0x0B ≤ op.toNat →
    ∃ t, transact (commandWord op a b) s = .next t ∧ s.onlyAnswered t .illegalCmd 0x00#8) ∧
  (∀ s : State, answersStatus 0x000000#24 s .illegalCmd) ∧
  (∀ w, ((∃! i, decode w = .command i) ∧ ¬ ∃ why, decode w = .illegal why) ∨
    ((∃ why, decode w = .illegal why) ∧ ¬ ∃ i, decode w = .command i)) ∧
  (∀ w (s t : State), transact w s = .next t → t.responses.length = s.responses.length + 1)

/-- The assembler notation (R49): every line whose operands fit assembles to the word of its command, and that word decodes back to
the command; a .word line assembles to its word, legal or not; a line assembles exactly when it is well formed; an operand of 0x100
or more is refused on every line that has one, and so are a rotation amount above 7 and a word wider than 24 bits. -/
def Obligations.AssembledLinesDecodeToTheirCommand : Prop :=
  (∀ a : Byte, (SourceLine.xtime a.toNat).assemble = some (encode (.xtime a))) ∧
  (∀ a b : Byte, (SourceLine.gfmul a.toNat b.toNat).assemble = some (encode (.gfmul a b))) ∧
  (∀ a : Byte, (SourceLine.gfinv a.toNat).assemble = some (encode (.gfinv a))) ∧
  (∀ (x : Byte) (s : Shift), (SourceLine.rotl8 x.toNat s.toNat).assemble = some (encode (.rotl8 x s))) ∧
  (∀ x : Byte, (SourceLine.affine x.toNat).assemble = some (encode (.affine x))) ∧
  SourceLine.gensbox.assemble = some (encode .gensbox) ∧
  SourceLine.genrcon.assemble = some (encode .genrcon) ∧
  (∀ i : Byte, (SourceLine.sbox i.toNat).assemble = some (encode (.sbox i))) ∧
  (∀ i : Byte, (SourceLine.isbox i.toNat).assemble = some (encode (.isbox i))) ∧
  (∀ i : Byte, (SourceLine.rcon i.toNat).assemble = some (encode (.rcon i))) ∧
  (∀ w : CommandWord, (SourceLine.word w.toNat).assemble = some w) ∧
  (∀ i, decode (encode i) = .command i) ∧
  (∀ l : SourceLine, l.assemble = none ↔ l.wellFormed = false) ∧
  (∀ n, 256 ≤ n → (SourceLine.xtime n).assemble = none ∧ (SourceLine.gfinv n).assemble = none ∧
    (SourceLine.affine n).assemble = none ∧ (SourceLine.sbox n).assemble = none ∧ (SourceLine.isbox n).assemble = none ∧
    (SourceLine.rcon n).assemble = none ∧
    ∀ m, (SourceLine.gfmul n m).assemble = none ∧ (SourceLine.gfmul m n).assemble = none ∧
      (SourceLine.rotl8 n m).assemble = none) ∧
  (∀ x s, 8 ≤ s → (SourceLine.rotl8 x s).assemble = none) ∧
  (∀ w, 2 ^ 24 ≤ w → (SourceLine.word w).assemble = none)

/-- The assembler notation as text (R49): every command, written, is read back as a line that assembles to its word, with a comment
or without; every rotation amount and every index of RCON is read in decimal too, and a decimal operand elsewhere is refused; any
command word, legal or not, written with .word is read back and assembles to itself; a rotation amount of 8 and an operand of 0x100
are refused. The reader's leniency and its refusal of `->` outside a comment are the model's choice, log 15. -/
def Obligations.WrittenCommandsAreReadBack : Prop :=
  (∀ i, ∃ l, readLine (writeCommand i) = .line l ∧ l.assemble = some (encode i)) ∧
  (∀ i (comment : List Char), readLine (writeCommand i ++ ' ' :: ';' :: comment) = readLine (writeCommand i)) ∧
  (∀ comment : List Char, readLine (';' :: comment) = .blank) ∧
  (∀ w : CommandWord, readLine (writeWord w) = .line (.word w.toNat) ∧ (SourceLine.word w.toNat).assemble = some w) ∧
  (∀ (x : Byte) (s : Shift), readLine ("ROTL8 ".toList ++ hexByte x ++ ", ".toList ++ writeDecimal s.toNat) =
    .line (.rotl8 x.toNat s.toNat)) ∧
  (∀ i : Byte, readLine ("RCON ".toList ++ writeDecimal i.toNat) = .line (.rcon i.toNat)) ∧
  (∀ i : Byte, ∀ mnemonic ∈ ["XTIME", "GFINV", "AFFINE", "SBOX", "ISBOX", ".word"],
    readLine (mnemonic.toList ++ ' ' :: writeDecimal i.toNat) = .refused) ∧
  readLine "ROTL8 0xCA, 3".toList = .line (.rotl8 0xCA 3) ∧ readLine "RCON 10".toList = .line (.rcon 10) ∧
  readLine "SBOX 10".toList = .refused ∧ readLine "GFMUL 0x57, 83".toList = .refused ∧
  readLine "GFMUL 0x57, 0x83 -> OK 0xC1".toList = .refused ∧
  readLine "GFMUL 0x57, 0x83 ; -> OK 0xC1".toList = .line (.gfmul 0x57 0x83) ∧ readLine "xtime 0x57".toList = .refused ∧
  readLine "ROTL8 0xCA, 8".toList = .line (.rotl8 0xCA 8) ∧ (SourceLine.rotl8 0xCA 8).assemble = none ∧
  readLine "XTIME 0x100".toList = .line (.xtime 0x100) ∧ (SourceLine.xtime 0x100).assemble = none ∧
  writeWord 0x04CA08#24 = ".word 0x04CA08".toList ∧
  writeCommand (.gfmul 0x57#8 0x83#8) = "GFMUL 0x57, 0x83".toList ∧
  writeResponse { st := .ok, data := 0xC1#8 } = "OK 0xC1".toList ∧
  writeResponse { st := .noInverse, data := 0x00#8 } = "ERR_NO_INVERSE".toList

/-! ## The step, reset and the invariant -/

/-- A step performs the host's next action: a word that decodes is executed as its command, an illegal word is answered
ERR_ILLEGAL_CMD, reset and an interrupted command leave the reset unit, and with nothing to do nothing changes (R25, R52, R103,
R104, R110). The model's own readings: the host's list of actions is log 1, the idle step log 5, what reset leaves besides the
unit log 7. The last clause is the model's own too: `withFetchWord` presents exactly its word, log 6 and log 10. -/
def Obligations.StepPerformsTheNextAction : Prop :=
  (∀ (s : State) w rest i, s.host = .command w :: rest → decode w = .command i → step s = exec i (s.withHost rest)) ∧
  (∀ (s : State) w rest why, s.host = .command w :: rest → decode w = .illegal why →
    ∃ t, step s = .next t ∧ (s.withHost rest).onlyAnswered t .illegalCmd 0x00#8) ∧
  (∀ (s : State) rest, s.host = .reset :: rest → step s = .next (s.withHost rest).resetUnit) ∧
  (∀ (s : State) w rest, s.host = .resetDuring w :: rest → step s = .next (s.withHost rest).resetUnit) ∧
  (∀ s : State, s.host = [] → step s = .next s) ∧
  (∀ (s : State) (w : CommandWord) i, decode w = .command i → step (s.withFetchWord 24 w.toNat) = exec i s)

/-- After reset both flags are 0 and no table entry holds a value, whatever came before; the lookups are then answered
ERR_TABLE_NOT_READY (R25, R105). What stays, the responses already taken and the host's plans, is the model's reading, log 7. -/
def Obligations.ResetLeavesNothingGenerated : Prop :=
  State.reset.sv = false ∧ State.reset.rv = false ∧ (∀ a, State.reset.memRead a = none) ∧
  (∀ s : State, s.resetUnit.sv = false ∧ s.resetUnit.rv = false ∧ (∀ a, s.resetUnit.memRead a = none) ∧
    s.resetUnit.config = s.config ∧ s.resetUnit.host = s.host ∧ s.resetUnit.responses = s.responses) ∧
  (∀ (s : State) (i : Byte), completesWith (.sbox i) s.resetUnit .tableNotReady 0x00#8 ∧
    completesWith (.isbox i) s.resetUnit .tableNotReady 0x00#8 ∧
    (i.toNat ≤ 9 → completesWith (.rcon i) s.resetUnit .tableNotReady 0x00#8))

/-- The invariant holds at reset, of the default instance and of every other. -/
def Obligations.InvariantHoldsAtReset : Prop := State.reset.Inv ∧ ∀ s : State, s.resetUnit.Inv

/-- Every step keeps the invariant: a table whose flag is 1 holds exactly the generated values, a table whose flag is 0 holds
none, memory is canonical and inside the flat table space. -/
def Obligations.StepKeepsTheInvariant : Prop := ∀ s t : State, s.Inv → step s = .next t → t.Inv

/-- Every step leaves the seed alone and the memory canonical, delivers one response at most, and takes one action from the
host; in every state, the invariant or not. -/
def Obligations.StepKeepsSeedAndMemoryForm : Prop :=
  ∀ s t : State, step s = .next t →
    t.config = s.config ∧ (s.mem.wf = true → t.mem.wf = true) ∧ t.host = s.host.tail ∧
    (t.responses = s.responses ∨ ∃ r, t.responses = s.responses ++ [r])

/-- No step stops, and every transaction is answered by exactly one response, from every state that keeps the invariant
(R52: total). -/
def Obligations.EveryTransactionIsAnswered : Prop :=
  ∀ s : State, s.Inv →
    (∀ w, ∃ t st d, transact w s = .next t ∧ t.responses = s.responses ++ [{ st := st, data := d }] ∧
      t.host = s.host ∧ t.config = s.config ∧ t.Inv) ∧
    ∃ t, step s = .next t

/-- R24: only GENSBOX writes SBOX, INVSBOX and SV; only GENRCON writes RCON and RV; only reset clears SV and RV; a table whose
flag is 1 always holds exactly the generated values. -/
def Obligations.OnlyGenerationWritesTables : Prop :=
  (∀ w (s t : State), transact w s = .next t → ¬ s.sameSbox t → w = encode .gensbox) ∧
  (∀ w (s t : State), transact w s = .next t → ¬ s.sameRcon t → w = encode .genrcon) ∧
  (∀ a (s t : State), perform a s = .next t → (s.sv = true ∧ t.sv = false) ∨ (s.rv = true ∧ t.rv = false) →
    a = .reset ∨ ∃ w, a = .resetDuring w) ∧
  (∀ a (s t : State), s.Inv → perform a s = .next t → t.sv = true → ∀ i : Byte,
    t.memRead (sboxAddr i) = some (sboxEntry i) ∧ t.memRead (invSboxAddr (sboxEntry i)) = some i) ∧
  (∀ a (s t : State), s.Inv → perform a s = .next t → t.rv = true → ∀ i < rconSize,
    t.memRead (rconAddr i) = some (applyTimes xtime i t.config.rconSeed))

/-- A lookup whose flag is 1 and whose entry holds no value stops with the model's own fault. The spec's unit has no such state;
the fault is the model's choice, log 3. -/
def Obligations.LookupOfAnUnwrittenEntryFaults : Prop :=
  (∀ (s : State) (i : Byte), s.sv = true → s.memRead (sboxAddr i) = none →
    exec (.sbox i) s = .fault (.tableEntryUnwritten (sboxAddr i))) ∧
  (∀ (s : State) (i : Byte), s.sv = true → s.memRead (invSboxAddr i) = none →
    exec (.isbox i) s = .fault (.tableEntryUnwritten (invSboxAddr i))) ∧
  (∀ (s : State) (i : Byte), s.rv = true → i.toNat ≤ 9 → s.memRead (rconAddr i.toNat) = none →
    exec (.rcon i) s = .fault (.tableEntryUnwritten (rconAddr i.toNat)))

/-! ## Errors -/

/-- R13: a command that fails writes no table entry and no valid flag, and its response has DATA 0x00. -/
def Obligations.FailingCommandChangesNothing : Prop :=
  ∀ w (s t : State) st d, transact w s = .next t → t.responses = s.responses ++ [{ st := st, data := d }] → st ≠ .ok →
    s.onlyAnswered t st 0x00#8

/-- R96: after an error the tables and flags hold what they held, the next command is executed as if the failing one had never
been presented and answered by one response of its own, so nothing is retried, and the failing word presented again gets the same
error. -/
def Obligations.ErrorsAreNotSticky : Prop :=
  ∀ w (s t : State) st d, transact w s = .next t → t.responses = s.responses ++ [{ st := st, data := d }] → st ≠ .ok →
    s.sameSbox t ∧ s.sameRcon t ∧
    (∀ v (u : State), transact v s = .next u →
      ∃ r u', u.responses = s.responses ++ [r] ∧ transact v t = .next u' ∧ u'.responses = t.responses ++ [r] ∧
        u.sameSbox u' ∧ u.sameRcon u') ∧
    answersStatus w t st

/-- R95: one command reports one status; decoding is checked first, then the operand's value, then the state. -/
def Obligations.ChecksAreMadeInOrder : Prop :=
  (∀ w (s t : State) st d, transact w s = .next t → t.responses = s.responses ++ [{ st := st, data := d }] →
    st = match decode w with
      | .illegal _ => .illegalCmd
      | .command (.gfinv a) => if a = 0x00#8 then .noInverse else .ok
      | .command (.rcon i) => if 10 ≤ i.toNat then .indexRange else if s.rv then .ok else .tableNotReady
      | .command (.sbox _) => if s.sv then .ok else .tableNotReady
      | .command (.isbox _) => if s.sv then .ok else .tableNotReady
      | .command _ => .ok) ∧
  (∀ (a b : Byte) (s : State), b ≠ 0x00#8 → answersStatus (commandWord 0x0A#8 a b) s .illegalCmd) ∧
  (∀ (a : Byte) (s : State), 10 ≤ a.toNat → answersStatus (commandWord 0x0A#8 a 0x00#8) s .indexRange) ∧
  (∀ (op a b : Byte) (s : State), op = 0x08#8 ∨ op = 0x09#8 ∨ op = 0x0A#8 → b ≠ 0x00#8 →
    answersStatus (commandWord op a b) s .illegalCmd) ∧
  (∀ (b : Byte) (s : State), b ≠ 0x00#8 → answersStatus (commandWord 0x03#8 0x00#8 b) s .illegalCmd)

/-- R91: ERR_ILLEGAL_CMD is the answer to a reserved opcode or a nonzero must-be-zero bit, and to nothing else, in every
state. -/
def Obligations.IllegalStatusDependsOnTheWordAlone : Prop :=
  (∀ w (s : State), answersStatus w s .illegalCmd ↔
    ((opField w = 0x00#8 ∨ 0x0B ≤ (opField w).toNat) ∨
      (opField w ∈ [0x01#8, 0x03#8, 0x05#8, 0x08#8, 0x09#8, 0x0A#8] ∧ bField w ≠ 0x00#8) ∨
      (opField w = 0x04#8 ∧ 8 ≤ (bField w).toNat) ∨
      (opField w ∈ [0x06#8, 0x07#8] ∧ (aField w ≠ 0x00#8 ∨ bField w ≠ 0x00#8)))) ∧
  (∀ s : State, ∀ w ∈ [0x000000#24, 0x0B0000#24, 0xFFFFFF#24, 0x010001#24, 0x04CA08#24, 0x060100#24],
    answersStatus w s .illegalCmd)

/-- R92: ERR_NO_INVERSE is the answer to GFINV of 0x00 and to nothing else, in every state. -/
def Obligations.NoInverseOnlyFromGfinvOfZero : Prop :=
  ∀ w (s : State), answersStatus w s .noInverse ↔ w = 0x030000#24

/-- R93: ERR_INDEX_RANGE is the answer to RCON of an index of 10 or more and to nothing else, in every state. -/
def Obligations.IndexRangeOnlyFromRcon : Prop :=
  ∀ w (s : State), answersStatus w s .indexRange ↔ ∃ a : Byte, 10 ≤ a.toNat ∧ w = commandWord 0x0A#8 a 0x00#8

/-- R94: ERR_TABLE_NOT_READY is the answer to a lookup whose flag is 0 and to nothing else; it is the only status that depends on
the state and the only way the flags can be told apart; generation cures it. -/
def Obligations.NotReadyOnlyFromUngeneratedTables : Prop :=
  (∀ w (s : State), answersStatus w s .tableNotReady ↔
    (s.sv = false ∧ ∃ i, w = commandWord 0x08#8 i 0x00#8 ∨ w = commandWord 0x09#8 i 0x00#8) ∨
    (s.rv = false ∧ ∃ i : Byte, i.toNat ≤ 9 ∧ w = commandWord 0x0A#8 i 0x00#8)) ∧
  (∀ w (s s' : State) st, st ≠ .ok → st ≠ .tableNotReady → answersStatus w s st → answersStatus w s' st) ∧
  (∀ w (s s' t t' : State) r r', s.Inv → s'.Inv → s.config = s'.config → transact w s = .next t →
    transact w s' = .next t' → t.responses = s.responses ++ [r] → t'.responses = s'.responses ++ [r'] →
    r = r' ∨ r.st = .tableNotReady ∨ r'.st = .tableNotReady) ∧
  (∀ s t : State, s.Inv → exec .gensbox s = .next t → ∀ i,
    answersStatus (encode (.sbox i)) t .ok ∧ answersStatus (encode (.isbox i)) t .ok) ∧
  (∀ s t : State, s.Inv → exec .genrcon s = .next t → ∀ i : Byte, i.toNat ≤ 9 → answersStatus (encode (.rcon i)) t .ok)

/-! ## Field arithmetic -/

/-- R55, R56: XTIME answers the double of its operand and does nothing else; the double is the shift reduced by 0x1B, and the
nine-bit shift reduced by 0x11B; doubling is a bijection. What R55 derives bit by bit is in `DerivedFieldFactsHold`. -/
def Obligations.XtimeAnswersTheDouble : Prop :=
  (∀ (a : Byte) (s : State), completesWith (.xtime a) s .ok (xtime a)) ∧
  (∀ (a : Byte) (s : State), transact (commandWord 0x01#8 a 0x00#8) s = exec (.xtime a) s) ∧
  (∀ (a b : Byte) (s : State), b ≠ 0x00#8 → answersStatus (commandWord 0x01#8 a b) s .illegalCmd) ∧
  (∀ a : Byte, xtime a = if a.getLsbD 7 then a <<< 1 ^^^ 0x1B#8 else a <<< 1) ∧
  (∀ a : Byte, (xtime a).setWidth 9 =
    if (a.setWidth 9 <<< 1).getLsbD 8 then (a.setWidth 9 <<< 1) ^^^ 0x11B#9 else a.setWidth 9 <<< 1) ∧
  Function.Bijective xtime ∧
  xtime 0x00#8 = 0x00#8 ∧ xtime 0x80#8 = 0x1B#8 ∧ xtime 0x7F#8 = 0xFE#8 ∧ xtime 0xFF#8 = 0xE5#8 ∧
  xtime 0x8D#8 = 0x01#8 ∧ xtime 0x57#8 = 0xAE#8 ∧ (∀ x : Byte, gfmul 0x02#8 x = 0x01#8 ↔ x = 0x8D#8) ∧
  encode (.xtime 0x57#8) = 0x015700#24 ∧ (Response.mk .ok 0xAE#8).word = 0x0AE#12

/-- R57, R58: GFMUL answers the remainder of the product of the two polynomials on division by x^8+x^4+x^3+x+1, and does nothing
else; it is the XOR, over the bits set in b, of a doubled that many times; every word with its opcode is a GFMUL, and none fails;
the corner cases and the example of R58. Where R58 says that the result is never the integer product, its example is what the
statement says, log 17. -/
def Obligations.GfmulAnswersThePolynomialRemainder : Prop :=
  (∀ (a b : Byte) (s : State), completesWith (.gfmul a b) s .ok (gfmul a b)) ∧
  (∀ (a b : Byte) (s : State), transact (commandWord 0x02#8 a b) s = exec (.gfmul a b) s) ∧
  (∀ a b : Byte, (clmul (a.setWidth 16) (b.setWidth 16)).toNat < 2 ^ 15) ∧
  (∀ a b : Byte, ∃ q : BitVec 16, q.toNat < 2 ^ 7 ∧
    clmul (a.setWidth 16) (b.setWidth 16) = clmul reductionPolynomial q ^^^ (gfmul a b).setWidth 16) ∧
  (∀ (a b r : Byte) (q : BitVec 16), q.toNat < 2 ^ 7 →
    clmul (a.setWidth 16) (b.setWidth 16) = clmul reductionPolynomial q ^^^ r.setWidth 16 → r = gfmul a b) ∧
  (∀ a b : Byte, gfmul a b =
    (List.range 8).foldl (fun p i => if b.getLsbD i then p ^^^ applyTimes xtime i a else p) 0x00#8) ∧
  (∀ a : Byte, gfmul a 0x00#8 = 0x00#8 ∧ gfmul 0x00#8 a = 0x00#8 ∧ gfmul a 0x01#8 = a ∧ gfmul 0x01#8 a = a ∧
    gfmul a 0x02#8 = xtime a) ∧
  (∀ a b : Byte, gfmul a b = gfmul b a) ∧
  (∀ a b : Byte, a ≠ 0x00#8 → b ≠ 0x00#8 → gfmul a b ≠ 0x00#8) ∧
  gfmul 0x80#8 0x80#8 = 0x9A#8 ∧ gfmul 0xFF#8 0xFF#8 = 0x13#8 ∧ gfmul 0x10#8 0x10#8 = 0x1B#8 ∧
  gfmul 0x02#8 0x80#8 = 0x1B#8 ∧ gfmul 0x57#8 0x83#8 = 0xC1#8 ∧
  encode (.gfmul 0x57#8 0x83#8) = 0x025783#24 ∧ (Response.mk .ok 0xC1#8).word = 0x0C1#12

/-- The laws of multiplication, doubling and inverse, which the spec marks as derived from R54, R55, R57 and R59 (R66); 0x02 has order 51, so a doubling sequence from any nonzero seed has
period 51 and never reaches 0x00; 0x03 has order 255. -/
def Obligations.FieldLawsHold : Prop :=
  (∀ a b, gfmul a b = gfmul b a) ∧
  (∀ a b c, gfmul (gfmul a b) c = gfmul a (gfmul b c)) ∧
  (∀ a b c, gfmul a (b ^^^ c) = gfmul a b ^^^ gfmul a c) ∧
  (∀ a, gfmul a 0x01#8 = a ∧ gfmul a 0x00#8 = 0x00#8) ∧
  (∀ a, gfmul a 0x02#8 = xtime a) ∧
  (∀ a b, gfmul a b = 0x00#8 → a = 0x00#8 ∨ b = 0x00#8) ∧
  (∀ a, a ≠ 0x00#8 → gfmul a (gfinv a) = 0x01#8 ∧ ∀ x, gfmul a x = 0x01#8 → x = gfinv a) ∧
  applyTimes xtime 51 0x01#8 = 0x01#8 ∧ (∀ n, 0 < n → n < 51 → applyTimes xtime n 0x01#8 ≠ 0x01#8) ∧
  (∀ a, a ≠ 0x00#8 → applyTimes xtime 51 a = a ∧ ∀ n, applyTimes xtime n a ≠ 0x00#8) ∧
  applyTimes (gfmul 0x03#8) 255 0x01#8 = 0x01#8 ∧
  (∀ n, 0 < n → n < 255 → applyTimes (gfmul 0x03#8) n 0x01#8 ≠ 0x01#8)

/-- R59: on 1..255 gfinv is the unique inverse; the search finds it; it is an involution, and fixes 0x01 alone. Nothing is said of
gfinv at 0x00. What R59 derives besides is in `DerivedFieldFactsHold`. -/
def Obligations.GfinvIsTheUniqueInverse : Prop :=
  (∀ a, a ≠ 0x00#8 → gfmul a (gfinv a) = 0x01#8 ∧ gfinv a ≠ 0x00#8) ∧
  (∀ a x, gfmul a x = 0x01#8 → x = gfinv a) ∧
  (∀ a, a ≠ 0x00#8 → (inverseCandidates.find? fun x => gfmul a x == 0x01#8) = some (gfinv a)) ∧
  (∀ a, a ≠ 0x00#8 → gfinv (gfinv a) = a) ∧
  (∀ a, a ≠ 0x00#8 → (gfinv a = a ↔ a = 0x01#8))

/-- R60: GFINV answers the inverse of a nonzero operand, never 0x00, and ERR_NO_INVERSE for 0x00; it does nothing else. -/
def Obligations.GfinvAnswersTheInverseOrRefuses : Prop :=
  (∀ (a : Byte) (s : State), a ≠ 0x00#8 → completesWith (.gfinv a) s .ok (gfinv a) ∧ gfinv a ≠ 0x00#8) ∧
  (∀ s : State, completesWith (.gfinv 0x00#8) s .noInverse 0x00#8) ∧
  (∀ (a : Byte) (s : State), transact (commandWord 0x03#8 a 0x00#8) s = exec (.gfinv a) s) ∧
  (∀ (a b : Byte) (s : State), b ≠ 0x00#8 → answersStatus (commandWord 0x03#8 a b) s .illegalCmd) ∧
  (∀ a x : Byte, gfmul a x = 0x01#8 → gfinv a = x) ∧
  gfinv 0x01#8 = 0x01#8 ∧ gfinv 0x02#8 = 0x8D#8 ∧ gfinv 0xFF#8 = 0x1C#8 ∧ gfinv 0x53#8 = 0xCA#8 ∧
  encode (.gfinv 0x53#8) = 0x035300#24 ∧ (Response.mk .ok 0xCA#8).word = 0x0CA#12 ∧
  encode (.gfinv 0x00#8) = 0x030000#24 ∧ (Response.mk .noInverse 0x00#8).word = 0x200#12

/-- R61, R62: ROTL8 answers its operand rotated toward bit 7 and does nothing else: bit i of the result is bit (i - s) mod 8 of x;
a rotation amount of 8 or more is refused. -/
def Obligations.Rotl8AnswersTheRotation : Prop :=
  (∀ (x : Byte) (sh : Shift) (s : State), completesWith (.rotl8 x sh) s .ok (rotl8 x sh)) ∧
  (∀ (x b : Byte) (s : State), b.toNat < 8 →
    transact (commandWord 0x04#8 x b) s = exec (.rotl8 x (BitVec.ofNat 3 b.toNat)) s) ∧
  (∀ (x b : Byte) (s : State), 8 ≤ b.toNat → answersStatus (commandWord 0x04#8 x b) s .illegalCmd) ∧
  (∀ (x : Byte) (sh : Shift), ∀ i < 8, (rotl8 x sh).getLsbD i = x.getLsbD ((i + 8 - sh.toNat) % 8)) ∧
  (∀ x : Byte, rotl8 x 0#3 = x) ∧ (∀ sh, rotl8 0x00#8 sh = 0x00#8 ∧ rotl8 0xFF#8 sh = 0xFF#8) ∧
  (∀ (x : Byte) (sh : Shift), rotl8 (rotl8 x sh) (0#3 - sh) = x) ∧
  (∀ x : Byte, rotl8 x 4#3 = x.extractLsb' 0 4 ++ x.extractLsb' 4 4) ∧
  rotl8 0xCA#8 3#3 = 0x56#8 ∧ encode (.rotl8 0xCA#8 3#3) = 0x04CA03#24 ∧
  (Response.mk .ok 0x56#8).word = 0x056#12

/-- R63, R64: AFFINE answers the XOR of x, its rotations by 1 to 4 and 0x63, and does nothing else; it is affine, and it is not the
S-box. The XOR tree and the bijection that R63 derives are in `DerivedFieldFactsHold`. -/
def Obligations.AffineAnswersTheXorOfRotations : Prop :=
  (∀ (x : Byte) (s : State), completesWith (.affine x) s .ok (affine x)) ∧
  (∀ (x : Byte) (s : State), transact (commandWord 0x05#8 x 0x00#8) s = exec (.affine x) s) ∧
  (∀ (x b : Byte) (s : State), b ≠ 0x00#8 → answersStatus (commandWord 0x05#8 x b) s .illegalCmd) ∧
  (∀ x : Byte, affine x =
    x ^^^ x.rotateLeft 1 ^^^ x.rotateLeft 2 ^^^ x.rotateLeft 3 ^^^ x.rotateLeft 4 ^^^ 0x63#8) ∧
  (∀ x y : Byte, affine (x ^^^ y) = affine x ^^^ affine y ^^^ 0x63#8) ∧
  affine 0x00#8 = 0x63#8 ∧ affine 0x01#8 = 0x7C#8 ∧ affine 0xFF#8 = 0x9C#8 ∧ affine 0x1C#8 = 0x16#8 ∧
  gfinv 0xFF#8 = 0x1C#8 ∧ affine 0xCA#8 = 0xED#8 ∧ affine 0x53#8 ≠ sboxEntry 0x53#8 ∧
  encode (.affine 0xCA#8) = 0x05CA00#24 ∧ (Response.mk .ok 0xED#8).word = 0x0ED#12

/-- What the spec derives of the field functions and marks as derived, or as general knowledge: xtime bit by bit (in R55); no byte is
an inverse of 0x00, the order of the inverse's search does not matter, and the inverse is the power 254 (in R59); the other
direction of rotation would give affine(0x01) = 0x92 (in R61); affine as an XOR tree, and as a bijection (in R63). -/
def Obligations.DerivedFieldFactsHold : Prop :=
  (∀ a : Byte, (xtime a).getLsbD 7 = a.getLsbD 6 ∧ (xtime a).getLsbD 6 = a.getLsbD 5 ∧
    (xtime a).getLsbD 5 = a.getLsbD 4 ∧ (xtime a).getLsbD 4 = (a.getLsbD 3 ^^ a.getLsbD 7) ∧
    (xtime a).getLsbD 3 = (a.getLsbD 2 ^^ a.getLsbD 7) ∧ (xtime a).getLsbD 2 = a.getLsbD 1 ∧
    (xtime a).getLsbD 1 = (a.getLsbD 0 ^^ a.getLsbD 7) ∧ (xtime a).getLsbD 0 = a.getLsbD 7) ∧
  (∀ x, gfmul 0x00#8 x = 0x00#8) ∧
  (∀ candidates : List Byte, (∀ x, x ≠ 0x00#8 → x ∈ candidates) → ∀ a, a ≠ 0x00#8 →
    (candidates.find? fun x => gfmul a x == 0x01#8) = some (gfinv a)) ∧
  (∀ a, a ≠ 0x00#8 → applyTimes (gfmul a) 254 0x01#8 = gfinv a) ∧
  affine 0x01#8 = 0x7C#8 ∧
  0x01#8 ^^^ (0x01#8).rotateRight 1 ^^^ (0x01#8).rotateRight 2 ^^^ (0x01#8).rotateRight 3 ^^^ (0x01#8).rotateRight 4 ^^^
    0x63#8 = 0x92#8 ∧
  (∀ x : Byte, ∀ i < 8, (affine x).getLsbD i =
    (x.getLsbD i ^^ x.getLsbD ((i + 4) % 8) ^^ x.getLsbD ((i + 5) % 8) ^^ x.getLsbD ((i + 6) % 8) ^^
      x.getLsbD ((i + 7) % 8) ^^ (0x63#8).getLsbD i)) ∧
  Function.Bijective affine

/-- R67: each of the five field commands reads its command word alone and writes no table entry and no flag: one response, the
same in every state. -/
def Obligations.FieldCommandsArePure : Prop :=
  ∀ i, (∃ a, i = .xtime a ∨ i = .gfinv a ∨ i = .affine a) ∨ (∃ a b, i = .gfmul a b) ∨ (∃ x sh, i = .rotl8 x sh) →
    ∃ st d, ∀ s : State, completesWith i s st d

/-! ## Generation -/

/-- R68, R69: GENSBOX writes SBOX[0] = 0x63, SBOX[i] = affine(gfinv(i)) for every other i, INVSBOX[SBOX[i]] = i for every i, and SV;
it answers OK with DATA 0x00 and leaves RCON, RV and the seed alone; it is the one word 0x060000. -/
def Obligations.GensboxWritesBothTables : Prop :=
  (∀ s : State, ∃ t, exec .gensbox s = .next t ∧ t.sv = true ∧
    t.memRead (sboxAddr 0x00#8) = some 0x63#8 ∧
    (∀ i : Byte, i ≠ 0x00#8 → t.memRead (sboxAddr i) = some (affine (gfinv i))) ∧
    (∀ i v : Byte, t.memRead (sboxAddr i) = some v → t.memRead (invSboxAddr v) = some i) ∧
    (∀ j : Byte, ∃ i : Byte, t.memRead (invSboxAddr j) = some i ∧ t.memRead (sboxAddr i) = some j) ∧
    t.responses = s.responses ++ [{ st := .ok, data := 0x00#8 }] ∧ s.sameRcon t ∧ s.sameSurroundings t ∧
    ∃ u, exec (.sbox 0x00#8) t = .next u ∧ t.onlyAnswered u .ok 0x63#8) ∧
  affine 0x00#8 = 0x63#8 ∧
  (∀ s : State, transact 0x060000#24 s = exec .gensbox s) ∧
  (∀ (a b : Byte) (s : State), a ≠ 0x00#8 ∨ b ≠ 0x00#8 → answersStatus (commandWord 0x06#8 a b) s .illegalCmd) ∧
  (∀ s t : State, s.Inv → s.sv = true → exec .gensbox s = .next t → s.onlyAnswered t .ok 0x00#8)

/-- R70: in every state with SV = 1, SBOX is a bijection and INVSBOX its exact inverse; the known entries. What R70 derives by
evaluation is in `SboxMovesEveryIndex`. -/
def Obligations.SboxIsABijectionWithItsInverse : Prop :=
  ∀ s : State, s.Inv → s.sv = true →
    (∀ i : Byte, ∃ v, s.memRead (sboxAddr i) = some v ∧ s.memRead (invSboxAddr v) = some i) ∧
    (∀ j : Byte, ∃ i, s.memRead (invSboxAddr j) = some i ∧ s.memRead (sboxAddr i) = some j) ∧
    (∀ v : Byte, ∃! i : Byte, s.memRead (sboxAddr i) = some v) ∧
    s.memRead (sboxAddr 0x00#8) = some 0x63#8 ∧ s.memRead (sboxAddr 0x01#8) = some 0x7C#8 ∧
    s.memRead (sboxAddr 0xFF#8) = some 0x16#8 ∧ s.memRead (invSboxAddr 0x63#8) = some 0x00#8 ∧
    s.memRead (invSboxAddr 0x7C#8) = some 0x01#8 ∧ s.memRead (invSboxAddr 0x16#8) = some 0xFF#8

/-- SBOX has no fixed point and no i with SBOX[i] = i ^ 0xFF, which the spec marks as derived by evaluation (in R70); and affine takes
every value but 0x63 on 1..255. -/
def Obligations.SboxMovesEveryIndex : Prop :=
  (∀ (s : State) (i v : Byte), s.Inv → s.sv = true → s.memRead (sboxAddr i) = some v → v ≠ i ∧ v ≠ i ^^^ 0xFF#8) ∧
  (∀ v : Byte, v ≠ 0x63#8 ↔ ∃ x : Byte, x ≠ 0x00#8 ∧ affine x = v)

/-- The Rcon tables of the seeds R71 names, whose bytes the spec marks as derived from R55. -/
def Obligations.RconOfTheNamedSeeds : Prop :=
  ∀ s t : State, exec .genrcon s = .next t →
    (s.config.rconSeed = 0x01#8 → (List.range 10).map (fun i => t.memRead (rconAddr i)) =
      [0x01#8, 0x02#8, 0x04#8, 0x08#8, 0x10#8, 0x20#8, 0x40#8, 0x80#8, 0x1B#8, 0x36#8].map some) ∧
    (s.config.rconSeed = 0x8D#8 → (List.range 10).map (fun i => t.memRead (rconAddr i)) =
      [0x8D#8, 0x01#8, 0x02#8, 0x04#8, 0x08#8, 0x10#8, 0x20#8, 0x40#8, 0x80#8, 0x1B#8].map some) ∧
    (s.config.rconSeed = 0x00#8 → ∀ i < 10, t.memRead (rconAddr i) = some 0x00#8)

/-- R71, R72: GENRCON writes the ten entries, each the seed doubled that many times, and RV, for every seed; it answers OK with DATA
0x00 and leaves SBOX, INVSBOX, SV and the seed alone; it is the one word 0x070000. -/
def Obligations.GenrconWritesTheDoublings : Prop :=
  (∀ s : State, ∃ t, exec .genrcon s = .next t ∧ t.rv = true ∧
    t.memRead (rconAddr 0) = some s.config.rconSeed ∧
    (∀ i < 9, ∃ v, t.memRead (rconAddr i) = some v ∧ t.memRead (rconAddr (i + 1)) = some (xtime v)) ∧
    (∀ i < 10, t.memRead (rconAddr i) = some (applyTimes xtime i s.config.rconSeed) ∧
      applyTimes xtime i s.config.rconSeed =
        gfmul s.config.rconSeed (applyTimes (gfmul 0x02#8) i 0x01#8)) ∧
    t.responses = s.responses ++ [{ st := .ok, data := 0x00#8 }] ∧
    s.sameSbox t ∧ (∀ a, flatSize ≤ a → t.memRead a = s.memRead a) ∧ s.sameSurroundings t) ∧
  (∀ i < 9, (applyTimes xtime i 0x01#8).getLsbD 7 = true ↔ i = 7) ∧
  (∀ s : State, transact 0x070000#24 s = exec .genrcon s) ∧
  (∀ (a b : Byte) (s : State), a ≠ 0x00#8 ∨ b ≠ 0x00#8 → answersStatus (commandWord 0x07#8 a b) s .illegalCmd) ∧
  (∀ s t u : State, s.config.rconSeed = 0x01#8 → exec .genrcon s = .next t → exec (.rcon 8#8) t = .next u →
    t.onlyAnswered u .ok 0x1B#8)

/-- R73: generation is deterministic: from any two states the substitution tables come out byte-identical, and so does RCON where the
seeds agree; a table whose flag is 1 never changes value, and generating it again is no error. -/
def Obligations.GenerationIsDeterministic : Prop :=
  (∀ s s' t t' : State, exec .gensbox s = .next t → exec .gensbox s' = .next t' →
    ∀ a < 512, t.memRead a = t'.memRead a) ∧
  (∀ s s' t t' : State, s.config = s'.config → exec .genrcon s = .next t → exec .genrcon s' = .next t' →
    ∀ i < 10, t.memRead (rconAddr i) = t'.memRead (rconAddr i)) ∧
  (∀ s : State, s.Inv → s.sv = true → completesWith .gensbox s .ok 0x00#8) ∧
  (∀ s : State, s.Inv → s.rv = true → completesWith .genrcon s .ok 0x00#8) ∧
  (∀ w (s t : State), s.Inv → transact w s = .next t →
    (s.sv = true → s.sameSbox t) ∧ (s.rv = true → s.sameRcon t))

/-- The two generation commands may be issued in either order (R106, R72): the unit comes out the same. -/
def Obligations.GenerationOrderDoesNotMatter : Prop :=
  ∀ s : State, s.mem.wf = true → transactAll [encode .gensbox, encode .genrcon] s =
    transactAll [encode .genrcon, encode .gensbox] s

/-! ## Lookup -/

/-- R74: SBOX answers the entry its operand indexes when SV is 1 and ERR_TABLE_NOT_READY when it is 0, and does nothing else; the
entry is affine(gfinv(i)), and 0x63 at index 0; it never equals the index. -/
def Obligations.SboxAnswersTheEntry : Prop :=
  (∀ (s : State) (i : Byte), s.sv = false → completesWith (.sbox i) s .tableNotReady 0x00#8) ∧
  (∀ (s : State) (i v : Byte), s.sv = true → s.memRead (sboxAddr i) = some v → completesWith (.sbox i) s .ok v) ∧
  (∀ (s : State) (i : Byte), s.Inv → s.sv = true → i ≠ 0x00#8 → completesWith (.sbox i) s .ok (affine (gfinv i))) ∧
  (∀ s : State, s.Inv → s.sv = true → completesWith (.sbox 0x00#8) s .ok 0x63#8 ∧
    completesWith (.sbox 0x01#8) s .ok 0x7C#8 ∧ completesWith (.sbox 0xFF#8) s .ok 0x16#8 ∧
    completesWith (.sbox 0x53#8) s .ok 0xED#8) ∧
  (∀ (s : State) (i v : Byte), s.Inv → s.sv = true → completesWith (.sbox i) s .ok v → v ≠ i) ∧
  (∀ (s : State) (i : Byte), transact (commandWord 0x08#8 i 0x00#8) s = exec (.sbox i) s) ∧
  (∀ (s : State) (i b : Byte), b ≠ 0x00#8 → answersStatus (commandWord 0x08#8 i b) s .illegalCmd) ∧
  encode (.sbox 0x53#8) = 0x085300#24 ∧ (Response.mk .ok 0xED#8).word = 0x0ED#12 ∧
  (Response.mk .tableNotReady 0x00#8).word = 0x400#12

/-- R75: ISBOX answers the entry of the inverse table when SV is 1 and ERR_TABLE_NOT_READY when it is 0, and does nothing else; the
entry at SBOX[i] is i. -/
def Obligations.IsboxAnswersTheInverseEntry : Prop :=
  (∀ (s : State) (i : Byte), s.sv = false → completesWith (.isbox i) s .tableNotReady 0x00#8) ∧
  (∀ (s : State) (i v : Byte), s.sv = true → s.memRead (invSboxAddr i) = some v → completesWith (.isbox i) s .ok v) ∧
  (∀ s : State, s.Inv → s.sv = true → ∀ j : Byte, ∃ i, sboxEntry i = j ∧ completesWith (.isbox j) s .ok i) ∧
  (∀ s : State, s.Inv → s.sv = true → completesWith (.isbox 0x63#8) s .ok 0x00#8 ∧
    completesWith (.isbox 0x7C#8) s .ok 0x01#8 ∧ completesWith (.isbox 0x16#8) s .ok 0xFF#8 ∧
    completesWith (.isbox 0x00#8) s .ok 0x52#8 ∧ completesWith (.isbox 0xED#8) s .ok 0x53#8) ∧
  (∀ (s : State) (i : Byte), transact (commandWord 0x09#8 i 0x00#8) s = exec (.isbox i) s) ∧
  (∀ (s : State) (i b : Byte), b ≠ 0x00#8 → answersStatus (commandWord 0x09#8 i b) s .illegalCmd) ∧
  encode (.isbox 0xED#8) = 0x09ED00#24 ∧ (Response.mk .ok 0x53#8).word = 0x053#12

/-- R76: RCON answers ERR_INDEX_RANGE for an index of 10 or more in every state, ERR_TABLE_NOT_READY for a legal index when RV is 0,
and the entry when RV is 1, the seed at index 0; it does nothing else. -/
def Obligations.RconAnswersTheEntry : Prop :=
  (∀ (s : State) (i : Byte), 10 ≤ i.toNat → completesWith (.rcon i) s .indexRange 0x00#8) ∧
  (∀ (s : State) (i : Byte), i.toNat ≤ 9 → s.rv = false → completesWith (.rcon i) s .tableNotReady 0x00#8) ∧
  (∀ (s : State) (i v : Byte), i.toNat ≤ 9 → s.rv = true → s.memRead (rconAddr i.toNat) = some v →
    completesWith (.rcon i) s .ok v) ∧
  (∀ (s : State) (i : Byte), s.Inv → s.rv = true → i.toNat ≤ 9 →
    completesWith (.rcon i) s .ok (applyTimes xtime i.toNat s.config.rconSeed)) ∧
  (∀ s : State, s.Inv → s.rv = true → completesWith (.rcon 0#8) s .ok s.config.rconSeed) ∧
  (∀ s : State, s.Inv → s.rv = true → s.config.rconSeed = 0x01#8 →
    completesWith (.rcon 0#8) s .ok 0x01#8 ∧ completesWith (.rcon 9#8) s .ok 0x36#8) ∧
  (∀ (s : State) (i : Byte), transact (commandWord 0x0A#8 i 0x00#8) s = exec (.rcon i) s) ∧
  (∀ (s : State) (i b : Byte), b ≠ 0x00#8 → answersStatus (commandWord 0x0A#8 i b) s .illegalCmd) ∧
  encode (.rcon 9#8) = 0x0A0900#24 ∧ (Response.mk .ok 0x36#8).word = 0x036#12 ∧
  encode (.rcon 10#8) = 0x0A0A00#24 ∧ (Response.mk .indexRange 0x00#8).word = 0x300#12

/-- R77: what a host may rely on of the lookups, each while its flag is 1: the two substitutions undo each other, the reference
values, the doubling recurrence of Rcon checked against XTIME, and the repetition of a lookup. -/
def Obligations.LookupsAgreeWithEachOther : Prop :=
  (∀ s : State, s.Inv → s.sv = true → ∀ i : Byte, ∃ v t u,
    runsTo [encode (.sbox i), encode (.isbox v)] s t [⟨.ok, v⟩, ⟨.ok, i⟩] ∧
    ∃ v', runsTo [encode (.isbox i), encode (.sbox v')] s u [⟨.ok, v'⟩, ⟨.ok, i⟩]) ∧
  (∀ s : State, s.Inv → s.sv = true → ∃ t,
    runsTo [encode (.sbox 0x00#8), encode (.sbox 0x01#8), encode (.sbox 0xFF#8)] s t
      [⟨.ok, 0x63#8⟩, ⟨.ok, 0x7C#8⟩, ⟨.ok, 0x16#8⟩]) ∧
  (∀ s : State, s.Inv → s.rv = true → ∀ i < 9, ∃ v v' t,
    runsTo [encode (.rcon (BitVec.ofNat 8 i)), encode (.xtime v), encode (.rcon (BitVec.ofNat 8 (i + 1)))] s t
      [⟨.ok, v⟩, ⟨.ok, v'⟩, ⟨.ok, v'⟩]) ∧
  (∀ s : State, s.Inv → (s.sv = true → ∀ i : Byte, (∃ v t, runsTo [encode (.sbox i), encode (.sbox i)] s t [v, v]) ∧
      ∃ v t, runsTo [encode (.isbox i), encode (.isbox i)] s t [v, v]) ∧
    (s.rv = true → ∀ i : Byte, i.toNat ≤ 9 → ∃ v t, runsTo [encode (.rcon i), encode (.rcon i)] s t [v, v]))

/-- The flat table space (R28): with both tables generated, the command that reads flat address addr is SBOX addr, ISBOX addr - 256
or RCON addr - 512, and it answers the byte at that address. -/
def Obligations.LookupsReadTheFlatTableSpace : Prop :=
  ∀ s : State, s.Inv → s.sv = true → s.rv = true → ∀ addr < 522, ∃ v, s.memRead addr = some v ∧
    completesWith
      (if addr < 256 then .sbox (BitVec.ofNat 8 addr)
       else if addr < 512 then .isbox (BitVec.ofNat 8 (addr - 256))
       else .rcon (BitVec.ofNat 8 (addr - 512))) s .ok v

/-! ## Runs -/

/-- A lookup that follows a completed generation with no reset between them reads the generated value, whatever commands come
between (R34). -/
def Obligations.LookupAfterGenerationReadsTheGeneratedValue : Prop :=
  (∀ (s t : State) (ws : List CommandWord), s.Inv → exec .gensbox s = .next t →
    ∃ u, transactAll ws t = .next u ∧ ∀ i : Byte, completesWith (.sbox i) u .ok (sboxEntry i) ∧
      completesWith (.isbox (sboxEntry i)) u .ok i) ∧
  (∀ (s t : State) (ws : List CommandWord), s.Inv → exec .genrcon s = .next t →
    ∃ u, transactAll ws t = .next u ∧ ∀ i : Byte, i.toNat ≤ 9 →
      completesWith (.rcon i) u .ok (applyTimes xtime i.toNat s.config.rconSeed))

/-- A run (R108): the machine's steps over a list of command words are their transactions in order, and from a state that keeps
the invariant the run ends with one response per command. -/
def Obligations.RunAnswersEveryCommandInOrder : Prop :=
  (∀ (s : State) (ws : List CommandWord),
    Host.Core.run Sys2Proof.core ws.length (s.withCommands ws) = transactAll ws s) ∧
  (∀ (s : State) (ws : List CommandWord), s.Inv → ∃ t rs, runsTo ws s t rs ∧ t.host = s.host ∧ t.Inv) ∧
  (∀ (s : State) (us ws : List CommandWord) t, transactAll (us ++ ws) s = .next t →
    ∃ u, transactAll us s = .next u ∧ transactAll ws u = .next t)

/-! ## The host-side contract -/

/-- R80: the blob is the three tables one after another, 522 bytes; byte k of the blob of the unit's own tables is
MemRead(k, 1). -/
def Obligations.BlobLaysOutTheThreeTables : Prop :=
  (∀ T : Tables, T.encode.length = 522 ∧ (∀ i : Fin 256, T.encode[i.val]? = some T.sbox[i]) ∧
    (∀ i : Fin 256, T.encode[256 + i.val]? = some T.inverseSbox[i]) ∧
    (∀ i : Fin 10, T.encode[512 + i.val]? = some T.rcon[i])) ∧
  (∀ (s : State) (T : Tables), s.holdsTables T → ∀ k < 522, T.encode[k]? = s.memRead k)

/-- R82: decode fails with TruncatedInput exactly when the blob is shorter than 522 bytes, else answers the three slices, ignores
what follows, and gives back any tables that were encoded. -/
def Obligations.DecodeBlobSlicesOrReportsTruncation : Prop :=
  (∀ blob : List Byte, blob.length < 522 → decodeBlob blob = .error .truncatedInput) ∧
  (∀ blob : List Byte, 522 ≤ blob.length → ∃ T, decodeBlob blob = .tables T ∧
    T.sbox.toList = blob.take 256 ∧ T.inverseSbox.toList = (blob.drop 256).take 256 ∧
    T.rcon.toList = (blob.drop 512).take 10) ∧
  (∀ blob more : List Byte, 522 ≤ blob.length → decodeBlob (blob ++ more) = decodeBlob blob) ∧
  (∀ T : Tables, decodeBlob T.encode = .tables T)

/-- R84: checkBijection answers true exactly when inverseSbox[sbox[i]] = i for every i, and reports the least failing index with
both values; it is true of the tables of a unit with SV = 1. What R84 derives besides is in
`BijectionCheckCoversBothDirections`. -/
def Obligations.CheckBijectionFindsTheFirstViolation : Prop :=
  (∀ f g : Vector Byte 256, checkBijection f g = true ↔ ∀ i : Fin 256, g[f[i].toNat]'(f[i].isLt) = BitVec.ofNat 8 i.val) ∧
  (∀ (f g : Vector Byte 256) r, firstBijectionViolation f g = some r ↔ ∃ i : Fin 256, r.index = i.val ∧
    r.image = f[i] ∧ r.back = g[f[i].toNat]'(f[i].isLt) ∧ r.back ≠ BitVec.ofNat 8 i.val ∧
    ∀ j < i, g[f[j].toNat]'(f[j].isLt) = BitVec.ofNat 8 j.val) ∧
  (∀ (s : State) (T : Tables), s.Inv → s.sv = true → s.holdsTables T → checkBijection T.sbox T.inverseSbox = true)

/-- The check of one direction implies the other, and that the S-box is a bijection, which the spec marks as derived (in R84). -/
def Obligations.BijectionCheckCoversBothDirections : Prop :=
  ∀ f g : Vector Byte 256, checkBijection f g = true →
    (∀ i : Fin 256, f[g[i].toNat]'(g[i].isLt) = BitVec.ofNat 8 i.val) ∧ Function.Bijective (fun i : Fin 256 => f[i])

/-- R85: checkRoundTrip answers true exactly when all three tables are equal, and reports the first mismatch in the order sbox,
inverseSbox, rcon; it is true of tables decoded from their own blob. -/
def Obligations.CheckRoundTripFindsTheFirstMismatch : Prop :=
  (∀ T U : Tables, checkRoundTrip T U = true ↔ T = U) ∧
  (∀ (T U : Tables) r, firstMismatch T U = some r ↔
    (∃ i : Fin 256, r = ⟨.sbox, i.val, T.sbox[i], U.sbox[i]⟩ ∧ T.sbox[i] ≠ U.sbox[i] ∧
      ∀ j < i, T.sbox[j] = U.sbox[j]) ∨
    (T.sbox = U.sbox ∧ ∃ i : Fin 256, r = ⟨.inverseSbox, i.val, T.inverseSbox[i], U.inverseSbox[i]⟩ ∧
      T.inverseSbox[i] ≠ U.inverseSbox[i] ∧ ∀ j < i, T.inverseSbox[j] = U.inverseSbox[j]) ∨
    (T.sbox = U.sbox ∧ T.inverseSbox = U.inverseSbox ∧ ∃ i : Fin 10, r = ⟨.rcon, i.val, T.rcon[i], U.rcon[i]⟩ ∧
      T.rcon[i] ≠ U.rcon[i] ∧ ∀ j < i, T.rcon[j] = U.rcon[j])) ∧
  (∀ T U : Tables, decodeBlob T.encode = .tables U → checkRoundTrip T U = true)

/-- Reading the tables out (R81): with both flags 1 the 522 lookups are all answered OK, their DATA bytes are the blob of the unit's
tables, and the unit is left as it was; with a flag 0 no blob is formed. -/
def Obligations.ReadOutFormsTheBlob : Prop :=
  (∀ s : State, s.Inv → s.sv = true → s.rv = true → ∃ T t rs, s.holdsTables T ∧ runsTo readOutCommands s t rs ∧
    rs.length = 522 ∧ (∀ r ∈ rs, r.st = .ok) ∧ rs.map Response.data = T.encode ∧ readOut s = some (T.encode, t) ∧
    s.sameSbox t ∧ s.sameRcon t) ∧
  (∀ s : State, s.Inv → s.sv = false ∨ s.rv = false → readOut s = none)

/-- The host's sequence generate, write, read, verify (R86), over storage that gives back what was written, ends with both checks
true, for every seed; storage that fails, or that gives back less than a blob, ends it with its error; and a byte changed in
storage is found by the second check. Storage as an argument, and the end at the first failure, are the model's choice, log 11. -/
def Obligations.PipelineVerifiesTheGeneratedTables : Prop :=
  (∀ s : State, s.Inv → pipeline .ok s = .verified { bijection := true, roundTrip := true }) ∧
  (∀ (s : State) e, s.Inv → pipeline (fun _ => .error e) s = .failed e) ∧
  (∀ (s : State) n, s.Inv → n < 522 → pipeline (fun blob => .ok (blob.take n)) s = .failed .truncatedInput) ∧
  (∀ (s : State) n (d : Byte), s.Inv → n < 522 → d ≠ 0x00#8 →
    pipeline (fun blob => .ok (blob.modify n (· ^^^ d))) s = .verified { bijection := true, roundTrip := false })

/-! ## The ports -/

/-- The ports carry the transaction (R51, R52): over any cycles without reset, from an idle unit, the commands accepted are those
answered and at most one in flight; the unit's state is that of their transactions in the order accepted, and the response words
delivered are their responses. The cycle-level model is the spec's ports (R51); its reading is log 8. -/
def Obligations.PortsCarryTheTransaction : Prop :=
  ∀ (c : ClockedUnit) (is : List PortsIn), c.unit.Inv → c.phase = .idle → (∀ i ∈ is, i.rst = false) →
    ∃ done rs, c.accepted is = done ++ (c.cycles is).phase.inFlight ∧
      runsTo done c.unit (c.cycles is).unit rs ∧ c.delivered is = rs.map Response.word

/-- The reset input (R103, R25): while rst is 1 no command is accepted and no response presented, and the cycle leaves both flags 0,
every table entry without a value and nothing in progress; nothing else clears a flag or changes a generated table. The phases and
outputs in single cycles, and the consistency that a cycle keeps, are the model's choice, log 8; that an entry then holds no
value is log 3. -/
def Obligations.ResetInputClearsTheUnit : Prop :=
  (∀ (c : ClockedUnit) (i : PortsIn), i.rst = true →
    c.cmdReady i = false ∧ c.rsp i = none ∧ (c.cycle i).phase = .idle ∧ (c.cycle i).unit.sv = false ∧
    (c.cycle i).unit.rv = false ∧ (∀ a, (c.cycle i).unit.memRead a = none)) ∧
  (∀ (c : ClockedUnit) (i : PortsIn), c.consistent → (c.cycle i).consistent) ∧
  (∀ (c : ClockedUnit) (i : PortsIn), c.consistent → i.rst = false →
    (c.unit.sv = true → c.unit.sameSbox (c.cycle i).unit) ∧ (c.unit.rv = true → c.unit.sameRcon (c.cycle i).unit))

/-- The handshake (R51, R52): an idle unit is ready and accepts exactly what is presented; a unit with a command in flight is not
ready; a command accepted, finished and taken is answered and leaves the unit idle with the transaction's state; a command that
reset interrupts is never answered (R104); without the host or the unit acting, nothing changes. The cycle-level reading of the
ports is log 8, and what reset leaves of the responses already taken is log 7. -/
def Obligations.HandshakeAnswersAnAcceptedCommand : Prop :=
  (∀ (c : ClockedUnit) (i : PortsIn), i.rst = false → (c.cmdReady i = true ↔ c.phase = .idle)) ∧
  (∀ (c : ClockedUnit) (i : PortsIn), c.phase ≠ .idle → c.accepts i = false) ∧
  (∀ (c : ClockedUnit) (i j k : PortsIn) (t : State), c.phase = .idle → transact i.cmd c.unit = .next t →
    i.rst = false → j.rst = false → k.rst = false → i.cmdValid = true → j.finishes = true → k.rspReady = true →
    c.cycles [i, j, k] = { unit := t, phase := .idle } ∧
    c.delivered [i, j, k] = (t.lastResponse.map Response.word).toList) ∧
  (∀ (c : ClockedUnit) (i : PortsIn), i.rst = true → c.delivered [i] = [] ∧ c.accepted [i] = [] ∧
    c.cycle i = { unit := c.unit.resetUnit, phase := .idle } ∧ c.unit.resetUnit.responses = c.unit.responses) ∧
  (∀ (c : ClockedUnit) (i : PortsIn), i.rst = false → i.cmdValid = false → i.finishes = false → i.rspReady = false →
    c.cycle i = c)

/-! ## The response word -/

/-- R46, R90: bits 11:8 of a response word are the status code and bits 7:0 are DATA; the codes are 0x0 to 0x4 and no other is
produced; every accepted command is answered by exactly one response word; its DATA is the result where the command returns a byte
and 0x00 otherwise, with every error status among the others; each error status comes from the commands R90 names for it, and every
command can return OK. -/
def Obligations.ResponseWordCarriesStatusAndData : Prop :=
  (∀ r : Response, r.word.extractLsb' 8 4 = r.st.code ∧ r.word.extractLsb' 0 8 = r.data ∧
    r.word.toNat = r.st.code.toNat * 2 ^ 8 + r.data.toNat) ∧
  (∀ r q : Response, r.word = q.word → r = q) ∧
  Status.code .ok = 0x0#4 ∧ Status.code .illegalCmd = 0x1#4 ∧ Status.code .noInverse = 0x2#4 ∧
  Status.code .indexRange = 0x3#4 ∧ Status.code .tableNotReady = 0x4#4 ∧
  (∀ st : Status, st.code.toNat ≤ 4) ∧
  (∀ s : State, s.Inv → ∀ w, ∃ t r, transact w s = .next t ∧ t.responses = s.responses ++ [r]) ∧
  (∀ w (s t : State) r, transact w s = .next t → t.responses = s.responses ++ [r] →
    r.data = (if r.st = .ok then
        match decode w with
        | .command (.xtime a) => xtime a
        | .command (.gfmul a b) => gfmul a b
        | .command (.gfinv a) => gfinv a
        | .command (.rotl8 x sh) => rotl8 x sh
        | .command (.affine x) => affine x
        | .command (.sbox i) => (s.memRead (sboxAddr i)).getD 0x00#8
        | .command (.isbox i) => (s.memRead (invSboxAddr i)).getD 0x00#8
        | .command (.rcon i) => (s.memRead (rconAddr i.toNat)).getD 0x00#8
        | .command .gensbox => 0x00#8
        | .command .genrcon => 0x00#8
        | .illegal _ => 0x00#8
      else 0x00#8) ∧
    (r.st = .illegalCmd ↔ ∃ why, decode w = .illegal why) ∧
    (r.st = .illegalCmd → r.word = 0x100#12) ∧
    (r.st = .noInverse → (∃ a, decode w = .command (.gfinv a)) ∧ r.word = 0x200#12) ∧
    (r.st = .indexRange → (∃ i, decode w = .command (.rcon i)) ∧ r.word = 0x300#12) ∧
    (r.st = .tableNotReady →
      (∃ i, decode w = .command (.sbox i) ∨ decode w = .command (.isbox i) ∨ decode w = .command (.rcon i)) ∧
      r.word = 0x400#12)) ∧
  (∀ row ∈ opcodeTable, ∃ (i : Instr) (s : State), i.mnemonic = row.mnemonic ∧ s.Inv ∧ answersStatus (encode i) s .ok)
end

