-- ==== Sys2Proof/Laws/Field.lean ====
section
/-! SUPPORT. The algebra of the field arithmetic: doubling and multiplication are linear, so a law of theirs holds for all
bytes once it holds for the powers of x; the inverse is the one the search finds. -/

namespace Sys2Proof.Machine

theorem byte_xor_left_comm (a b c : Byte) : a ^^^ (b ^^^ c) = b ^^^ (a ^^^ c) := by
  rw [← BitVec.xor_assoc, ← BitVec.xor_assoc, BitVec.xor_comm a b]

/-- Doubling is linear. -/
theorem xtime_xor (a b : Byte) : xtime (a ^^^ b) = xtime a ^^^ xtime b := by
  simp only [xtime, BitVec.getLsbD_xor, BitVec.shiftLeft_xor_distrib]
  cases a.getLsbD 7 <;> cases b.getLsbD 7 <;>
    simp [BitVec.xor_assoc, BitVec.xor_comm, byte_xor_left_comm]

@[simp] theorem xtime_zero : xtime 0#8 = 0#8 := by decide

/-- t where the bit is set, else the zero polynomial. -/
def gated (x : Bool) (t : Byte) : Byte := if x then t else 0#8

theorem gated_xor (x y : Bool) (t : Byte) : gated (x ^^ y) t = gated x t ^^^ gated y t := by
  cases x <;> cases y <;> simp [gated]

theorem gated_xor_right (x : Bool) (t u : Byte) : gated x (t ^^^ u) = gated x t ^^^ gated x u := by
  cases x <;> simp [gated]

theorem gfmulTurn_eq (b : Byte) (pt : Byte × Byte) (i : Nat) :
    gfmulTurn b pt i = (pt.1 ^^^ gated (b.getLsbD i) pt.2, xtime pt.2) := by
  unfold gfmulTurn gated
  split <;> simp_all

/-- The multiplier's loop adds its terms to whatever p holds. -/
theorem foldl_gfmulTurn_add (b : Byte) (is : List Nat) (p t : Byte) :
    (is.foldl (gfmulTurn b) (p, t)).1 = p ^^^ (is.foldl (gfmulTurn b) (0#8, t)).1 := by
  induction is generalizing p t with
  | nil => simp
  | cons i is ih =>
    simp only [List.foldl_cons, gfmulTurn_eq]
    rw [ih, ih (0#8 ^^^ _)]
    simp [BitVec.xor_assoc]

theorem foldl_gfmulTurn_xor_right (b c : Byte) (is : List Nat) (t : Byte) :
    (is.foldl (gfmulTurn (b ^^^ c)) (0#8, t)).1 =
      (is.foldl (gfmulTurn b) (0#8, t)).1 ^^^ (is.foldl (gfmulTurn c) (0#8, t)).1 := by
  induction is generalizing t with
  | nil => simp
  | cons i is ih =>
    simp only [List.foldl_cons, gfmulTurn_eq]
    rw [foldl_gfmulTurn_add, foldl_gfmulTurn_add b, foldl_gfmulTurn_add c, ih, BitVec.getLsbD_xor, gated_xor]
    simp [BitVec.xor_assoc, byte_xor_left_comm]

theorem foldl_gfmulTurn_xor_left (b : Byte) (is : List Nat) (t u : Byte) :
    (is.foldl (gfmulTurn b) (0#8, t ^^^ u)).1 =
      (is.foldl (gfmulTurn b) (0#8, t)).1 ^^^ (is.foldl (gfmulTurn b) (0#8, u)).1 := by
  induction is generalizing t u with
  | nil => simp
  | cons i is ih =>
    simp only [List.foldl_cons, gfmulTurn_eq]
    rw [foldl_gfmulTurn_add, foldl_gfmulTurn_add b is (0#8 ^^^ gated _ t),
      foldl_gfmulTurn_add b is (0#8 ^^^ gated _ u), xtime_xor, ih, gated_xor_right]
    simp [BitVec.xor_assoc, byte_xor_left_comm]

/-- Multiplication distributes over the right operand. -/
theorem gfmul_xor_right (a b c : Byte) : gfmul a (b ^^^ c) = gfmul a b ^^^ gfmul a c :=
  foldl_gfmulTurn_xor_right b c _ a

/-- Multiplication distributes over the left operand. -/
theorem gfmul_xor_left (a b c : Byte) : gfmul (a ^^^ b) c = gfmul a c ^^^ gfmul b c :=
  foldl_gfmulTurn_xor_left c _ a b

/-- A property of the zero byte and of every power of x, kept by addition, holds of every byte. -/
theorem byte_induction {P : Byte → Prop} (zero : P 0#8) (power : ∀ i < 8, P (1#8 <<< i))
    (add : ∀ a b, P a → P b → P (a ^^^ b)) (a : Byte) : P a := by
  have key : ∀ n ≤ 8, ∀ a : Byte, a.toNat < 2 ^ n → P a := by
    intro n
    induction n with
    | zero =>
      intro _ a h
      have : a = 0#8 := by
        apply BitVec.eq_of_toNat_eq
        simp at h ⊢
        omega
      exact this ▸ zero
    | succ n ih =>
      intro hn a h
      by_cases hl : a.toNat < 2 ^ n
      · exact ih (by omega) a hl
      · have split : a = (a ^^^ 1#8 <<< n) ^^^ 1#8 <<< n := by simp
        have low : (a ^^^ 1#8 <<< n).toNat < 2 ^ n := by
          clear ih split
          have hn' : n < 8 := by omega
          interval_cases n <;> revert a <;> decide
        rw [split]
        exact add _ _ (ih (by omega) _ low) (power n (by omega))
  exact key 8 (le_refl _) a a.isLt

theorem gfmul_zero_left : ∀ a : Byte, gfmul 0#8 a = 0#8 :=
  byte_induction (by decide) (by decide) fun a b ha hb => by rw [gfmul_xor_right, ha, hb]; rfl

theorem gfmul_zero_right : ∀ a : Byte, gfmul a 0#8 = 0#8 :=
  byte_induction (by decide) (by decide) fun a b ha hb => by rw [gfmul_xor_left, ha, hb]; rfl

theorem gfmul_one_left : ∀ a : Byte, gfmul 1#8 a = a :=
  byte_induction (by decide) (by decide) fun a b ha hb => by rw [gfmul_xor_right, ha, hb]

theorem gfmul_one_right : ∀ a : Byte, gfmul a 1#8 = a :=
  byte_induction (by decide) (by decide) fun a b ha hb => by rw [gfmul_xor_left, ha, hb]

/-- Multiplication commutes. -/
theorem gfmul_comm (a b : Byte) : gfmul a b = gfmul b a := by
  refine byte_induction (P := fun a => ∀ b, gfmul a b = gfmul b a) ?_ ?_ ?_ a b
  · intro b; rw [gfmul_zero_left, gfmul_zero_right]
  · intro i hi
    refine byte_induction ?_ ?_ ?_
    · rw [gfmul_zero_left, gfmul_zero_right]
    · revert i; decide
    · intro b c hb hc; rw [gfmul_xor_left, gfmul_xor_right, hb, hc]
  · intro a c ha hc b; rw [gfmul_xor_left, gfmul_xor_right, ha, hc]

/-- Multiplication by x and doubling are the same function. -/
theorem gfmul_two (a : Byte) : gfmul a 2#8 = xtime a :=
  byte_induction (P := fun a => gfmul a 2#8 = xtime a) (by decide) (by decide)
    (fun a b ha hb => by rw [gfmul_xor_left, xtime_xor, ha, hb]) a

theorem xtime_gfmul (a b : Byte) : xtime (gfmul a b) = gfmul (xtime a) b := by
  refine byte_induction (P := fun b => ∀ a, xtime (gfmul a b) = gfmul (xtime a) b) ?_ ?_ ?_ b a
  · intro a; rw [gfmul_zero_right, gfmul_zero_right, xtime_zero]
  · intro i hi
    refine byte_induction ?_ ?_ ?_
    · rw [xtime_zero, gfmul_zero_left, xtime_zero]
    · revert i; decide
    · intro b c hb hc; rw [gfmul_xor_left, xtime_xor, xtime_xor, gfmul_xor_left, hb, hc]
  · intro b c hb hc a; rw [gfmul_xor_right, xtime_xor, gfmul_xor_right, hb, hc]

/-- A power of x is doubled from 1. -/
theorem power_eq_xtime : ∀ i < 7, 1#8 <<< (i + 1) = xtime (1#8 <<< i) := by decide

/-- Multiplication is associative. -/
theorem gfmul_assoc (a b c : Byte) : gfmul (gfmul a b) c = gfmul a (gfmul b c) := by
  refine byte_induction (P := fun a => ∀ b c, gfmul (gfmul a b) c = gfmul a (gfmul b c)) ?_ ?_ ?_ a b c
  · intro b c; simp only [gfmul_zero_left]
  · intro i
    induction i with
    | zero => intro _ b c; rw [show 1#8 <<< 0 = 1#8 from rfl, gfmul_one_left, gfmul_one_left]
    | succ i ih =>
      intro hi b c
      rw [power_eq_xtime i (by omega), ← xtime_gfmul, ← xtime_gfmul, ← xtime_gfmul, ih (by omega)]
  · intro a d ha hd b c; simp only [gfmul_xor_left, ha, hd]

/-- An inverse of every nonzero byte, by the table of 95_test_vectors.md V4. -/
def inverseWitness : List Byte :=
  [ 0x01, 0x8D, 0xF6, 0xCB, 0x52, 0x7B, 0xD1, 0xE8, 0x4F, 0x29, 0xC0, 0xB0, 0xE1, 0xE5, 0xC7 ] ++
  [ 0x74, 0xB4, 0xAA, 0x4B, 0x99, 0x2B, 0x60, 0x5F, 0x58, 0x3F, 0xFD, 0xCC, 0xFF, 0x40, 0xEE, 0xB2 ] ++
  [ 0x3A, 0x6E, 0x5A, 0xF1, 0x55, 0x4D, 0xA8, 0xC9, 0xC1, 0x0A, 0x98, 0x15, 0x30, 0x44, 0xA2, 0xC2 ] ++
  [ 0x2C, 0x45, 0x92, 0x6C, 0xF3, 0x39, 0x66, 0x42, 0xF2, 0x35, 0x20, 0x6F, 0x77, 0xBB, 0x59, 0x19 ] ++
  [ 0x1D, 0xFE, 0x37, 0x67, 0x2D, 0x31, 0xF5, 0x69, 0xA7, 0x64, 0xAB, 0x13, 0x54, 0x25, 0xE9, 0x09 ] ++
  [ 0xED, 0x5C, 0x05, 0xCA, 0x4C, 0x24, 0x87, 0xBF, 0x18, 0x3E, 0x22, 0xF0, 0x51, 0xEC, 0x61, 0x17 ] ++
  [ 0x16, 0x5E, 0xAF, 0xD3, 0x49, 0xA6, 0x36, 0x43, 0xF4, 0x47, 0x91, 0xDF, 0x33, 0x93, 0x21, 0x3B ] ++
  [ 0x79, 0xB7, 0x97, 0x85, 0x10, 0xB5, 0xBA, 0x3C, 0xB6, 0x70, 0xD0, 0x06, 0xA1, 0xFA, 0x81, 0x82 ] ++
  [ 0x83, 0x7E, 0x7F, 0x80, 0x96, 0x73, 0xBE, 0x56, 0x9B, 0x9E, 0x95, 0xD9, 0xF7, 0x02, 0xB9, 0xA4 ] ++
  [ 0xDE, 0x6A, 0x32, 0x6D, 0xD8, 0x8A, 0x84, 0x72, 0x2A, 0x14, 0x9F, 0x88, 0xF9, 0xDC, 0x89, 0x9A ] ++
  [ 0xFB, 0x7C, 0x2E, 0xC3, 0x8F, 0xB8, 0x65, 0x48, 0x26, 0xC8, 0x12, 0x4A, 0xCE, 0xE7, 0xD2, 0x62 ] ++
  [ 0x0C, 0xE0, 0x1F, 0xEF, 0x11, 0x75, 0x78, 0x71, 0xA5, 0x8E, 0x76, 0x3D, 0xBD, 0xBC, 0x86, 0x57 ] ++
  [ 0x0B, 0x28, 0x2F, 0xA3, 0xDA, 0xD4, 0xE4, 0x0F, 0xA9, 0x27, 0x53, 0x04, 0x1B, 0xFC, 0xAC, 0xE6 ] ++
  [ 0x7A, 0x07, 0xAE, 0x63, 0xC5, 0xDB, 0xE2, 0xEA, 0x94, 0x8B, 0xC4, 0xD5, 0x9D, 0xF8, 0x90, 0x6B ] ++
  [ 0xB1, 0x0D, 0xD6, 0xEB, 0xC6, 0x0E, 0xCF, 0xAD, 0x08, 0x4E, 0xD7, 0xE3, 0x5D, 0x50, 0x1E, 0xB3 ] ++
  [ 0x5B, 0x23, 0x38, 0x34, 0x68, 0x46, 0x03, 0x8C, 0xDD, 0x9C, 0x7D, 0xA0, 0xCD, 0x1A, 0x41, 0x1C ]

set_option maxRecDepth 8000 in
/-- Every nonzero byte has an inverse. -/
theorem gfmul_inverseWitness :
    ∀ a : Byte, a ≠ 0#8 → gfmul a (inverseWitness.getD (a.toNat - 1) 0#8) = 1#8 := by decide +kernel

theorem mem_inverseCandidates {x : Byte} (h : x ≠ 0#8) : x ∈ inverseCandidates := by
  have hx : x.toNat ≠ 0 := fun e => h (BitVec.eq_of_toNat_eq e)
  refine List.mem_map.mpr ⟨x.toNat - 1, List.mem_range.mpr (by omega), ?_⟩
  rw [Nat.sub_add_cancel (by omega), BitVec.ofNat_toNat, BitVec.setWidth_eq]

/-- The search finds an inverse of every nonzero byte. -/
theorem gfmul_gfinv {a : Byte} (h : a ≠ 0#8) : gfmul a (gfinv a) = 1#8 := by
  have hw := gfmul_inverseWitness a h
  have hne : inverseWitness.getD (a.toNat - 1) 0#8 ≠ 0#8 := by
    intro e
    rw [e, gfmul_zero_right] at hw
    exact absurd hw (by decide)
  have found : (inverseCandidates.find? fun x => gfmul a x == 1#8).isSome := by
    rw [List.find?_isSome]
    exact ⟨_, mem_inverseCandidates hne, by simpa using hw⟩
  obtain ⟨x, hx⟩ := Option.isSome_iff_exists.mp found
  have hp := List.find?_some hx
  simp only [gfinv, hx, Option.getD_some]
  simpa using hp

/-- A byte with an inverse has one only. -/
theorem gfinv_unique {a x : Byte} (h : gfmul a x = 1#8) : gfinv a = x := by
  have ha : a ≠ 0#8 := by
    rintro rfl
    rw [gfmul_zero_left] at h
    exact absurd h (by decide)
  calc gfinv a = gfmul (gfmul x a) (gfinv a) := by rw [gfmul_comm x a, h, gfmul_one_left]
    _ = x := by rw [gfmul_assoc, gfmul_gfinv ha, gfmul_one_right]

theorem gfinv_gfinv {a : Byte} (h : a ≠ 0#8) : gfinv (gfinv a) = a :=
  gfinv_unique (by rw [gfmul_comm, gfmul_gfinv h])

set_option maxRecDepth 8000 in
/-- The affine transform can be undone. -/
theorem affine_undone :
    ∀ x : Byte, rotl8 (affine x) 1#3 ^^^ rotl8 (affine x) 3#3 ^^^ rotl8 (affine x) 6#3 ^^^ 0x05#8 = x := by
  decide +kernel

theorem affine_injective {x y : Byte} (h : affine x = affine y) : x = y := by
  rw [← affine_undone x, ← affine_undone y, h]

theorem gfinv_ne_zero {a : Byte} (h : a ≠ 0#8) : gfinv a ≠ 0#8 := by
  intro e
  have := gfmul_gfinv h
  rw [e, gfmul_zero_right] at this
  exact absurd this (by decide)

/-- At 0x00 the constant is the affine transform's value at 0x00 (R68). -/
theorem sboxEntry_ne_zero_index {i : Byte} (h : i ≠ 0#8) : sboxEntry i = affine (gfinv i) := if_neg h

/-- No two entries of the S-box are equal. -/
theorem sboxEntry_injective {i j : Byte} (h : sboxEntry i = sboxEntry j) : i = j := by
  have image_ne {k : Byte} (hk : k ≠ 0#8) : affine (gfinv k) ≠ 0x63#8 := fun e =>
    gfinv_ne_zero hk (affine_injective (e.trans (by decide)))
  by_cases hi : i = 0#8 <;> by_cases hj : j = 0#8
  · rw [hi, hj]
  · rw [hi, sboxEntry_ne_zero_index hj] at h
    exact absurd h.symm (image_ne hj)
  · rw [hj, sboxEntry_ne_zero_index hi] at h
    exact absurd h (image_ne hi)
  · rw [sboxEntry_ne_zero_index hi, sboxEntry_ne_zero_index hj] at h
    rw [← gfinv_gfinv hi, ← gfinv_gfinv hj, affine_injective h]

end Sys2Proof.Machine
end

