-- ==== Sys2Proof/Laws/Memory.lean ====
section
/-! SUPPORT. The laws of memory: read after write, and the canonical form every operation keeps. -/

namespace Sys2Proof.Machine

@[simp] theorem Memory.read_nil (a : Nat) : Memory.read [] a = none := rfl

/-- A memory's addresses are strictly rising exactly when each is below the one after it and the rest is canonical. -/
theorem Memory.wf_cons_cons (c d : Host.Cell) (m : Memory) :
    Memory.wf (c :: d :: m) = true ↔ c.1 < d.1 ∧ Memory.wf (d :: m) = true := by
  simp [Memory.wf]

/-- Every address of a canonical memory's tail is above the head's. -/
theorem Memory.wf_cons (c : Host.Cell) (m : Memory) :
    Memory.wf (c :: m) = true ↔ (∀ d ∈ m, c.1 < d.1) ∧ Memory.wf m = true := by
  induction m generalizing c with
  | nil => simp [Memory.wf]
  | cons e m ih =>
    rw [Memory.wf_cons_cons, ih e]
    constructor
    · rintro ⟨hce, hem, hm⟩
      refine ⟨?_, hem, hm⟩
      intro d hd
      rcases List.mem_cons.mp hd with rfl | hd
      · exact hce
      · exact lt_trans hce (hem d hd)
    · rintro ⟨hall, hem, hm⟩
      exact ⟨hall e (List.mem_cons_self ..), hem, hm⟩

/-- An address below every listed one holds no value. -/
theorem Memory.read_eq_none_of_lt {m : Memory} {a : Nat} (h : ∀ d ∈ m, a < d.1) : Memory.read m a = none := by
  induction m with
  | nil => rfl
  | cons c m ih =>
    have hc := h c (List.mem_cons_self ..)
    rw [Memory.read, if_neg (by omega)]
    exact ih fun d hd => h d (List.mem_cons_of_mem _ hd)

/-- Reading the address just written gives the byte written. -/
@[simp] theorem Memory.read_write_self (m : Memory) (a : Nat) (v : Byte) : (m.write a v).read a = some v := by
  induction m with
  | nil => simp [Memory.write, Memory.read]
  | cons c m ih =>
    unfold Memory.write
    split
    · simp [Memory.read]
    · split
      · simp [Memory.read]
      · rename_i h1 h2
        rw [Memory.read, if_neg (fun h => h2 h.symm), ih]

/-- A write leaves every other address alone. -/
theorem Memory.read_write_of_ne (m : Memory) {a b : Nat} (v : Byte) (h : b ≠ a) :
    (m.write a v).read b = m.read b := by
  induction m with
  | nil => simp [Memory.write, Memory.read, h.symm]
  | cons c m ih =>
    unfold Memory.write
    split
    · simp [Memory.read, h.symm]
    · split
      · rename_i h1 h2
        have : c.1 ≠ b := fun e => h (e ▸ h2.symm)
        simp [Memory.read, h.symm, this]
      · simp only [Memory.read, ih]

/-- A write lists its own address and no other new one. -/
theorem Memory.mem_write {m : Memory} {a : Nat} {v : Byte} {c : Host.Cell} (h : c ∈ m.write a v) :
    c = (a, v) ∨ c ∈ m := by
  induction m with
  | nil => simpa [Memory.write] using h
  | cons e m ih =>
    unfold Memory.write at h
    split at h
    · simpa using h
    · split at h
      · rcases List.mem_cons.mp h with h | h
        · exact .inl h
        · exact .inr (List.mem_cons_of_mem _ h)
      · rcases List.mem_cons.mp h with h | h
        · exact .inr (h ▸ List.mem_cons_self ..)
        · exact (ih h).imp_right (List.mem_cons_of_mem _)

/-- A write keeps the canonical form. -/
theorem Memory.write_wf {m : Memory} (a : Nat) (v : Byte) (h : m.wf = true) : (m.write a v).wf = true := by
  induction m with
  | nil => rfl
  | cons c m ih =>
    obtain ⟨hall, hm⟩ := (Memory.wf_cons c m).mp h
    unfold Memory.write
    split
    · rename_i hlt
      exact (Memory.wf_cons_cons _ _ _).mpr ⟨hlt, h⟩
    · split
      · rename_i h1 h2
        refine (Memory.wf_cons _ _).mpr ⟨?_, hm⟩
        intro d hd
        have := hall d hd
        simp only at *
        omega
      · rename_i h1 h2
        refine (Memory.wf_cons _ _).mpr ⟨?_, ih hm⟩
        intro d hd
        rcases Memory.mem_write hd with rfl | hd
        · simp only; omega
        · exact hall d hd

/-- A write below a bound keeps every address below it. -/
theorem Memory.write_bounded {m : Memory} {n a : Nat} (v : Byte) (ha : a < n) (h : ∀ c ∈ m, c.1 < n) :
    ∀ c ∈ m.write a v, c.1 < n := by
  intro c hc
  rcases Memory.mem_write hc with rfl | hc
  · exact ha
  · exact h c hc

/-- Two canonical memories that read the same everywhere are the same list. -/
theorem Memory.ext_read {m n : Memory} (hm : m.wf = true) (hn : n.wf = true) (h : ∀ a, m.read a = n.read a) :
    m = n := by
  induction m generalizing n with
  | nil =>
    cases n with
    | nil => rfl
    | cons d n => have := h d.1; simp [Memory.read] at this
  | cons c m ih =>
    obtain ⟨hc, hm'⟩ := (Memory.wf_cons c m).mp hm
    cases n with
    | nil => have := h c.1; simp [Memory.read] at this
    | cons d n =>
      obtain ⟨hd, hn'⟩ := (Memory.wf_cons d n).mp hn
      have hcd : c.1 = d.1 := by
        rcases lt_trichotomy c.1 d.1 with hlt | heq | hgt
        · have hnone : Memory.read (d :: n) c.1 = none := Memory.read_eq_none_of_lt fun e he => by
            rcases List.mem_cons.mp he with rfl | he
            · exact hlt
            · exact lt_trans hlt (hd e he)
          have := h c.1
          simp [Memory.read] at this
          rw [Memory.read] at hnone
          simp_all
        · exact heq
        · have hnone : Memory.read (c :: m) d.1 = none := Memory.read_eq_none_of_lt fun e he => by
            rcases List.mem_cons.mp he with rfl | he
            · exact hgt
            · exact lt_trans hgt (hc e he)
          have := h d.1
          rw [hnone] at this
          simp [Memory.read] at this
      have hval : c.2 = d.2 := by
        have := h c.1
        simpa [Memory.read, hcd] using this
      have htail : m = n := ih hm' hn' fun a => by
        by_cases hac : c.1 = a
        · have h1 : Memory.read m a = none := Memory.read_eq_none_of_lt fun e he => hac ▸ hc e he
          have h2 : Memory.read n a = none := Memory.read_eq_none_of_lt fun e he => hac ▸ hcd ▸ hd e he
          rw [h1, h2]
        · have := h a
          simpa [Memory.read, hac, hcd ▸ hac] using this
      exact congrArg₂ _ (Prod.ext hcd hval) htail

end Sys2Proof.Machine
end

