-- ==== Sys2Proof/Laws/Generation.lean ====
section
/-! SUPPORT. What the writes of GENSBOX and GENRCON do, said once: the values written, and everything left alone. -/

namespace Sys2Proof.Machine

variable (s : State) (a : Nat)

@[simp] theorem State.genSboxTables_mem : s.genSboxTables.mem = writeSboxTables s.mem := rfl
@[simp] theorem State.genSboxTables_sv : s.genSboxTables.sv = s.sv := rfl
@[simp] theorem State.genSboxTables_rv : s.genSboxTables.rv = s.rv := rfl
@[simp] theorem State.genSboxTables_config : s.genSboxTables.config = s.config := rfl
@[simp] theorem State.genSboxTables_host : s.genSboxTables.host = s.host := rfl
@[simp] theorem State.genSboxTables_responses : s.genSboxTables.responses = s.responses := rfl
@[simp] theorem State.genSboxTables_memRead : s.genSboxTables.memRead a = (writeSboxTables s.mem).read a := rfl

@[simp] theorem State.genRconTable_mem : s.genRconTable.mem = writeRconTable s.config.rconSeed s.mem := rfl
@[simp] theorem State.genRconTable_sv : s.genRconTable.sv = s.sv := rfl
@[simp] theorem State.genRconTable_rv : s.genRconTable.rv = s.rv := rfl
@[simp] theorem State.genRconTable_config : s.genRconTable.config = s.config := rfl
@[simp] theorem State.genRconTable_host : s.genRconTable.host = s.host := rfl
@[simp] theorem State.genRconTable_responses : s.genRconTable.responses = s.responses := rfl
@[simp] theorem State.genRconTable_memRead :
    s.genRconTable.memRead a = (writeRconTable s.config.rconSeed s.mem).read a := rfl

theorem mem_allBytes (i : Byte) : i ∈ allBytes :=
  List.mem_map.mpr ⟨i.toNat, List.mem_range.mpr i.isLt, by rw [BitVec.ofNat_toNat, BitVec.setWidth_eq]⟩

theorem sboxAddr_lt (i : Byte) : sboxAddr i < 256 := i.isLt

theorem invSboxAddr_bounds (i : Byte) : 256 ≤ invSboxAddr i ∧ invSboxAddr i < 512 := by
  have := i.isLt
  unfold invSboxAddr
  omega

theorem rconAddr_bounds {i : Nat} (h : i < rconSize) : 512 ≤ rconAddr i ∧ rconAddr i < flatSize := by
  unfold rconAddr flatSize rconSize at *
  omega

theorem sboxAddr_injective {i j : Byte} (h : sboxAddr i = sboxAddr j) : i = j := BitVec.eq_of_toNat_eq h

theorem invSboxAddr_injective {i j : Byte} (h : invSboxAddr i = invSboxAddr j) : i = j :=
  BitVec.eq_of_toNat_eq (Nat.add_left_cancel h)

/-- One turn of GENSBOX writes SBOX[i]. -/
theorem read_writeSboxPair_sbox (m : Memory) (i j : Byte) :
    (writeSboxPair m i).read (sboxAddr j) = if j = i then some (sboxEntry i) else m.read (sboxAddr j) := by
  have hlt := sboxAddr_lt j
  have hge := (invSboxAddr_bounds (sboxEntry i)).1
  unfold writeSboxPair
  rw [Memory.read_write_of_ne _ _ (by omega)]
  split
  · rename_i h; rw [h, Memory.read_write_self]
  · rename_i h; exact Memory.read_write_of_ne _ _ fun e => h (sboxAddr_injective e)

/-- One turn of GENSBOX writes INVSBOX[SBOX[i]]. -/
theorem read_writeSboxPair_invSbox (m : Memory) (i j : Byte) :
    (writeSboxPair m i).read (invSboxAddr (sboxEntry j)) =
      if j = i then some i else m.read (invSboxAddr (sboxEntry j)) := by
  have hlt := sboxAddr_lt i
  have hge := (invSboxAddr_bounds (sboxEntry j)).1
  unfold writeSboxPair
  split
  · rename_i h; rw [h, Memory.read_write_self]
  · rename_i h
    rw [Memory.read_write_of_ne _ _ fun e => h (sboxEntry_injective (invSboxAddr_injective e)),
      Memory.read_write_of_ne _ _ (by omega)]

/-- One turn of GENSBOX leaves everything from 512 on alone. -/
theorem read_writeSboxPair_above (m : Memory) (i : Byte) {a : Nat} (h : 512 ≤ a) :
    (writeSboxPair m i).read a = m.read a := by
  have hlt := sboxAddr_lt i
  have hb := (invSboxAddr_bounds (sboxEntry i)).2
  unfold writeSboxPair
  rw [Memory.read_write_of_ne _ _ (by omega), Memory.read_write_of_ne _ _ (by omega)]

/-- GENSBOX gives SBOX[j] its generated value. -/
theorem read_writeSboxTables_sbox (m : Memory) (j : Byte) :
    (writeSboxTables m).read (sboxAddr j) = some (sboxEntry j) := by
  have turns (l : List Byte) : ∀ m : Memory, (l.foldl writeSboxPair m).read (sboxAddr j) =
      if j ∈ l then some (sboxEntry j) else m.read (sboxAddr j) := by
    induction l with
    | nil => intro m; simp
    | cons i l ih =>
      intro m
      rw [List.foldl_cons, ih, read_writeSboxPair_sbox]
      by_cases hj : j ∈ l <;> by_cases hi : j = i <;> simp [hj, hi]
  unfold writeSboxTables
  exact (turns allBytes m).trans (if_pos (mem_allBytes j))

/-- GENSBOX gives INVSBOX[SBOX[j]] the value j. -/
theorem read_writeSboxTables_invSbox (m : Memory) (j : Byte) :
    (writeSboxTables m).read (invSboxAddr (sboxEntry j)) = some j := by
  have turns (l : List Byte) : ∀ m : Memory, (l.foldl writeSboxPair m).read (invSboxAddr (sboxEntry j)) =
      if j ∈ l then some j else m.read (invSboxAddr (sboxEntry j)) := by
    induction l with
    | nil => intro m; simp
    | cons i l ih =>
      intro m
      rw [List.foldl_cons, ih, read_writeSboxPair_invSbox]
      by_cases hj : j ∈ l <;> by_cases hi : j = i <;> simp [hj, hi]
  unfold writeSboxTables
  exact (turns allBytes m).trans (if_pos (mem_allBytes j))

/-- GENSBOX leaves everything from 512 on alone. -/
theorem read_writeSboxTables_above (m : Memory) {a : Nat} (h : 512 ≤ a) :
    (writeSboxTables m).read a = m.read a := by
  have turns (l : List Byte) : ∀ m : Memory, (l.foldl writeSboxPair m).read a = m.read a := by
    induction l with
    | nil => intro m; rfl
    | cons i l ih => intro m; rw [List.foldl_cons, ih, read_writeSboxPair_above _ _ h]
  unfold writeSboxTables
  exact turns allBytes m

/-- GENSBOX keeps the canonical form. -/
theorem writeSboxTables_wf {m : Memory} (h : m.wf = true) : (writeSboxTables m).wf = true := by
  have turns (l : List Byte) : ∀ m : Memory, m.wf = true → (l.foldl writeSboxPair m).wf = true := by
    induction l with
    | nil => intro m h; exact h
    | cons i l ih => intro m h; exact ih _ (Memory.write_wf _ _ (Memory.write_wf _ _ h))
  unfold writeSboxTables
  exact turns allBytes m h

/-- GENSBOX lists no address of 512 or above. -/
theorem writeSboxTables_bounded {n : Nat} (hn : 512 ≤ n) {m : Memory} (h : ∀ c ∈ m, c.1 < n) :
    ∀ c ∈ writeSboxTables m, c.1 < n := by
  have turns (l : List Byte) : ∀ m : Memory, (∀ c ∈ m, c.1 < n) → ∀ c ∈ l.foldl writeSboxPair m, c.1 < n := by
    induction l with
    | nil => intro m h; exact h
    | cons i l ih =>
      intro m h
      have hlt := sboxAddr_lt i
      have hb := (invSboxAddr_bounds (sboxEntry i)).2
      exact ih _ (Memory.write_bounded _ (by omega) (Memory.write_bounded _ (by omega) h))
  unfold writeSboxTables
  exact turns allBytes m h

/-- GENRCON gives RCON[i] its generated value. -/
theorem read_writeRconTable_rcon (seed : Byte) (m : Memory) {i : Nat} (h : i < rconSize) :
    (writeRconTable seed m).read (rconAddr i) = some (rconEntry seed i) := by
  have turns (l : List Nat) : ∀ m : Memory, (l.foldl (writeRconEntry seed) m).read (rconAddr i) =
      if i ∈ l then some (rconEntry seed i) else m.read (rconAddr i) := by
    induction l with
    | nil => intro m; simp
    | cons j l ih =>
      intro m
      rw [List.foldl_cons, ih]
      by_cases hij : i = j
      · subst hij
        by_cases hl : i ∈ l <;> simp [hl, writeRconEntry]
      · have hne : rconAddr i ≠ rconAddr j := fun e => hij (Nat.add_left_cancel e)
        by_cases hl : i ∈ l <;> simp [hl, hij, writeRconEntry, Memory.read_write_of_ne _ _ hne]
  unfold writeRconTable
  exact (turns _ m).trans (if_pos (List.mem_range.mpr h))

/-- GENRCON leaves every address outside the Rcon table alone. -/
theorem read_writeRconTable_elsewhere (seed : Byte) (m : Memory) {a : Nat} (h : a < 512 ∨ flatSize ≤ a) :
    (writeRconTable seed m).read a = m.read a := by
  have turns (l : List Nat) (hl : ∀ i ∈ l, i < rconSize) : ∀ m : Memory,
      (l.foldl (writeRconEntry seed) m).read a = m.read a := by
    induction l with
    | nil => intro m; rfl
    | cons i l ih =>
      intro m
      have hb := rconAddr_bounds (hl i (List.mem_cons_self ..))
      rw [List.foldl_cons, ih fun j hj => hl j (List.mem_cons_of_mem _ hj)]
      exact Memory.read_write_of_ne _ _ (by omega)
  unfold writeRconTable
  exact turns _ (fun i hi => List.mem_range.mp hi) m

/-- GENRCON keeps the canonical form. -/
theorem writeRconTable_wf (seed : Byte) {m : Memory} (h : m.wf = true) : (writeRconTable seed m).wf = true := by
  have turns (l : List Nat) : ∀ m : Memory, m.wf = true → (l.foldl (writeRconEntry seed) m).wf = true := by
    induction l with
    | nil => intro m h; exact h
    | cons i l ih => intro m h; exact ih _ (Memory.write_wf _ _ h)
  unfold writeRconTable
  exact turns _ m h

/-- GENRCON lists no address outside the flat table space. -/
theorem writeRconTable_bounded (seed : Byte) {m : Memory} (h : ∀ c ∈ m, c.1 < flatSize) :
    ∀ c ∈ writeRconTable seed m, c.1 < flatSize := by
  have turns (l : List Nat) (hl : ∀ i ∈ l, i < rconSize) : ∀ m : Memory, (∀ c ∈ m, c.1 < flatSize) →
      ∀ c ∈ l.foldl (writeRconEntry seed) m, c.1 < flatSize := by
    induction l with
    | nil => intro m h; exact h
    | cons i l ih =>
      intro m h
      have hb := rconAddr_bounds (hl i (List.mem_cons_self ..))
      exact ih (fun j hj => hl j (List.mem_cons_of_mem _ hj)) _ (Memory.write_bounded _ hb.2 h)
  unfold writeRconTable
  exact turns _ (fun i hi => List.mem_range.mp hi) m h

end Sys2Proof.Machine
end

