-- ==== Sys2Proof/Laws/State.lean ====
section
/-! SUPPORT. One lemma per field per update of the state, true by rfl, so that no proof unfolds a record update. -/

namespace Sys2Proof.Machine

variable (s : State) (st : Status) (d : Byte) (a : Nat) (rest : List HostAction)

@[simp] theorem State.answered_mem : (s.answered st d).mem = s.mem := rfl
@[simp] theorem State.answered_sv : (s.answered st d).sv = s.sv := rfl
@[simp] theorem State.answered_rv : (s.answered st d).rv = s.rv := rfl
@[simp] theorem State.answered_config : (s.answered st d).config = s.config := rfl
@[simp] theorem State.answered_host : (s.answered st d).host = s.host := rfl
@[simp] theorem State.answered_responses :
    (s.answered st d).responses = s.responses ++ [{ st := st, data := d }] := rfl
@[simp] theorem State.answered_memRead : (s.answered st d).memRead a = s.memRead a := rfl

@[simp] theorem State.setSv_mem : s.setSv.mem = s.mem := rfl
@[simp] theorem State.setSv_sv : s.setSv.sv = true := rfl
@[simp] theorem State.setSv_rv : s.setSv.rv = s.rv := rfl
@[simp] theorem State.setSv_config : s.setSv.config = s.config := rfl
@[simp] theorem State.setSv_host : s.setSv.host = s.host := rfl
@[simp] theorem State.setSv_responses : s.setSv.responses = s.responses := rfl
@[simp] theorem State.setSv_memRead : s.setSv.memRead a = s.memRead a := rfl

@[simp] theorem State.setRv_mem : s.setRv.mem = s.mem := rfl
@[simp] theorem State.setRv_sv : s.setRv.sv = s.sv := rfl
@[simp] theorem State.setRv_rv : s.setRv.rv = true := rfl
@[simp] theorem State.setRv_config : s.setRv.config = s.config := rfl
@[simp] theorem State.setRv_host : s.setRv.host = s.host := rfl
@[simp] theorem State.setRv_responses : s.setRv.responses = s.responses := rfl
@[simp] theorem State.setRv_memRead : s.setRv.memRead a = s.memRead a := rfl

@[simp] theorem State.memWrite_mem : (s.memWrite a d).mem = s.mem.write a d := rfl
@[simp] theorem State.memWrite_sv : (s.memWrite a d).sv = s.sv := rfl
@[simp] theorem State.memWrite_rv : (s.memWrite a d).rv = s.rv := rfl
@[simp] theorem State.memWrite_config : (s.memWrite a d).config = s.config := rfl
@[simp] theorem State.memWrite_host : (s.memWrite a d).host = s.host := rfl
@[simp] theorem State.memWrite_responses : (s.memWrite a d).responses = s.responses := rfl

@[simp] theorem State.resetUnit_mem : s.resetUnit.mem = [] := rfl
@[simp] theorem State.resetUnit_sv : s.resetUnit.sv = false := rfl
@[simp] theorem State.resetUnit_rv : s.resetUnit.rv = false := rfl
@[simp] theorem State.resetUnit_config : s.resetUnit.config = s.config := rfl
@[simp] theorem State.resetUnit_host : s.resetUnit.host = s.host := rfl
@[simp] theorem State.resetUnit_responses : s.resetUnit.responses = s.responses := rfl
@[simp] theorem State.resetUnit_memRead : s.resetUnit.memRead a = none := rfl

@[simp] theorem State.withHost_mem : (s.withHost rest).mem = s.mem := rfl
@[simp] theorem State.withHost_sv : (s.withHost rest).sv = s.sv := rfl
@[simp] theorem State.withHost_rv : (s.withHost rest).rv = s.rv := rfl
@[simp] theorem State.withHost_config : (s.withHost rest).config = s.config := rfl
@[simp] theorem State.withHost_host : (s.withHost rest).host = rest := rfl
@[simp] theorem State.withHost_responses : (s.withHost rest).responses = s.responses := rfl
@[simp] theorem State.withHost_memRead : (s.withHost rest).memRead a = s.memRead a := rfl
@[simp] theorem State.withHost_withHost (r : List HostAction) : (s.withHost r).withHost rest = s.withHost rest := rfl

end Sys2Proof.Machine
end

