-- ==== Sys2Proof/Laws/Ops.lean ====
section
/-! SUPPORT. What each shared operation can do, said once: later proofs cite these lemmas instead of unfolding. -/

namespace Sys2Proof.Machine

@[simp] theorem respond_eq (st : Status) (d : Byte) (s : State) : respond st d s = .next (s.answered st d) := rfl

@[simp] theorem raise_eq (st : Status) (s : State) : raise st s = .next (s.answered st 0x00#8) := rfl

@[simp] theorem execIllegal_eq (s : State) : execIllegal s = .next (s.answered .illegalCmd 0x00#8) := rfl

/-- A lookup of an entry that holds a value answers it. -/
theorem respondEntry_of_held {addr : Nat} {s : State} {d : Byte} (h : s.memRead addr = some d) :
    respondEntry addr s = .next (s.answered .ok d) := by
  unfold respondEntry
  rw [h]
  rfl

/-- A lookup that answers a next state answered the value the entry holds. -/
theorem respondEntry_next {addr : Nat} {s t : State} (h : respondEntry addr s = .next t) :
    ∃ d, s.memRead addr = some d ∧ t = s.answered .ok d := by
  unfold respondEntry at h
  split at h
  · rename_i d hd
    exact ⟨d, hd, by simpa using h.symm⟩
  · cases h

/-- A next state of a command: a response and nothing else, or a generation. -/
theorem exec_next {i : Instr} {s t : State} (h : exec i s = .next t) :
    (∃ st d, t = s.answered st d) ∨
    (i = .gensbox ∧ t = s.genSboxTables.setSv.answered .ok 0x00#8) ∨
    (i = .genrcon ∧ t = s.genRconTable.setRv.answered .ok 0x00#8) := by
  have entry {addr : Nat} (h : respondEntry addr s = .next t) : ∃ st d, t = s.answered st d :=
    let ⟨d, _, ht⟩ := respondEntry_next h
    ⟨.ok, d, ht⟩
  have answer {st : Status} {d : Byte} (h : respond st d s = .next t) : ∃ st d, t = s.answered st d :=
    ⟨st, d, by simpa using h.symm⟩
  cases i with
  | xtime a => exact .inl (answer h)
  | gfmul a b => exact .inl (answer h)
  | gfinv a =>
    simp only [exec, execGfinv] at h
    split at h
    · exact .inl (answer h)
    · exact .inl (answer h)
  | rotl8 x sh => exact .inl (answer h)
  | affine x => exact .inl (answer h)
  | gensbox => exact .inr (.inl ⟨rfl, by simpa [exec, execGensbox] using h.symm⟩)
  | genrcon => exact .inr (.inr ⟨rfl, by simpa [exec, execGenrcon] using h.symm⟩)
  | sbox k =>
    simp only [exec, execSbox] at h
    split at h
    · exact .inl (entry h)
    · exact .inl (answer h)
  | isbox k =>
    simp only [exec, execIsbox] at h
    split at h
    · exact .inl (entry h)
    · exact .inl (answer h)
  | rcon k =>
    simp only [exec, execRcon] at h
    split at h
    · split at h
      · exact .inl (entry h)
      · exact .inl (answer h)
    · exact .inl (answer h)

/-- SBOX with SV = 1 answers the value the entry holds. -/
theorem exec_sbox_of_held {s : State} {i d : Byte} (flag : s.sv = true) (held : s.memRead (sboxAddr i) = some d) :
    exec (.sbox i) s = .next (s.answered .ok d) := by
  simp only [exec, execSbox, flag]
  exact respondEntry_of_held held

/-- ISBOX with SV = 1 answers the value the entry holds. -/
theorem exec_isbox_of_held {s : State} {i d : Byte} (flag : s.sv = true) (held : s.memRead (invSboxAddr i) = some d) :
    exec (.isbox i) s = .next (s.answered .ok d) := by
  simp only [exec, execIsbox, flag]
  exact respondEntry_of_held held

/-- RCON of a legal index with RV = 1 answers the value the entry holds. -/
theorem exec_rcon_of_held {s : State} {i d : Byte} (legal : i.toNat ≤ 9) (flag : s.rv = true)
    (held : s.memRead (rconAddr i.toNat) = some d) : exec (.rcon i) s = .next (s.answered .ok d) := by
  simp only [exec, execRcon, rconIndexLegal, legal, decide_true, if_true, flag]
  exact respondEntry_of_held held

/-- A transaction of a word that decodes is the command's execution. -/
theorem transact_of_command {w : CommandWord} {i : Instr} (h : decode w = .command i) (s : State) :
    transact w s = exec i s := by
  unfold transact
  rw [h]

/-- A transaction of an illegal word answers ERR_ILLEGAL_CMD. -/
theorem transact_of_illegal {w : CommandWord} {why : IllegalWord} (h : decode w = .illegal why) (s : State) :
    transact w s = .next (s.answered .illegalCmd 0x00#8) := by
  unfold transact
  rw [h]
  rfl

/-- A step with nothing to do leaves the state as it is. -/
theorem step_of_idle {s : State} (h : s.host = []) : step s = .next s := by
  unfold step
  rw [h]

/-- A step performs the host's first action. -/
theorem step_of_action {s : State} {a : HostAction} {rest : List HostAction} (h : s.host = a :: rest) :
    step s = perform a (s.withHost rest) := by
  unfold step
  rw [h]

end Sys2Proof.Machine
end

