-- ==== Sys2Proof/Laws/Invariant.lean ====
section
/-! SUPPORT. What carries the invariant from one state to another, said once: a change outside the unit's own state, and each of the
two generations. -/

namespace Sys2Proof.Machine

/-- The invariant reads the tables, the flags and the seed, and nothing else. -/
theorem State.Inv.of_same_unit {s t : State} (h : s.Inv) (mem : t.mem = s.mem) (sv : t.sv = s.sv) (rv : t.rv = s.rv)
    (config : t.config = s.config) : t.Inv := by
  obtain ⟨wf, inFlat, sbox, invSbox, noSbox, rcon, noRcon⟩ := h
  constructor <;> simp only [State.memRead, mem, sv, rv, config] <;> assumption

/-- Delivering a response keeps the invariant. -/
theorem State.Inv.answered {s : State} (h : s.Inv) (st : Status) (d : Byte) : (s.answered st d).Inv :=
  h.of_same_unit rfl rfl rfl rfl

/-- Taking an action from the host's list keeps the invariant. -/
theorem State.Inv.withHost {s : State} (h : s.Inv) (rest : List HostAction) : (s.withHost rest).Inv :=
  h.of_same_unit rfl rfl rfl rfl

/-- The generation of SBOX and INVSBOX keeps the invariant. -/
theorem State.Inv.genSbox {s : State} (h : s.Inv) : s.genSboxTables.setSv.Inv where
  wf := writeSboxTables_wf h.wf
  inFlatSpace := writeSboxTables_bounded (by decide) h.inFlatSpace
  sboxHeld := fun _ i => read_writeSboxTables_sbox s.mem i
  invSboxHeld := fun _ i => read_writeSboxTables_invSbox s.mem i
  sboxAbsent := by simp
  rconHeld := fun hrv i hi =>
    (read_writeSboxTables_above s.mem (rconAddr_bounds hi).1).trans (h.rconHeld hrv i hi)
  rconAbsent := fun hrv i hi =>
    (read_writeSboxTables_above s.mem (rconAddr_bounds hi).1).trans (h.rconAbsent hrv i hi)

/-- The generation of RCON keeps the invariant. -/
theorem State.Inv.genRcon {s : State} (h : s.Inv) : s.genRconTable.setRv.Inv where
  wf := writeRconTable_wf _ h.wf
  inFlatSpace := writeRconTable_bounded _ h.inFlatSpace
  sboxHeld := fun hsv i =>
    (read_writeRconTable_elsewhere _ s.mem (.inl (by have := sboxAddr_lt i; omega))).trans (h.sboxHeld hsv i)
  invSboxHeld := fun hsv i =>
    (read_writeRconTable_elsewhere _ s.mem (.inl (invSboxAddr_bounds _).2)).trans (h.invSboxHeld hsv i)
  sboxAbsent := fun hsv a ha =>
    (read_writeRconTable_elsewhere _ s.mem (.inl ha)).trans (h.sboxAbsent hsv a ha)
  rconHeld := fun _ _ hi => read_writeRconTable_rcon s.config.rconSeed s.mem hi
  rconAbsent := by simp

end Sys2Proof.Machine
end

