-- ==== Sys2Proof/Laws/PerInstr.lean ====
section
/-! SUPPORT. Statements made for every command, one lemma for each constructor of Instr. -/

namespace Sys2Proof.Laws

/-- A mask applied to a word applies to each of its fields. -/
theorem masked_commandWord (op a b mo ma mb : Byte) :
    commandWord op a b &&& commandWord mo ma mb = commandWord (op &&& mo) (a &&& ma) (b &&& mb) := by
  have outer := BitVec.and_append (x₁ := op ++ a) (x₂ := mo ++ ma) (y₁ := b) (y₂ := mb)
  have inner := BitVec.and_append (x₁ := op) (x₂ := mo) (y₁ := a) (y₂ := ma)
  unfold commandWord
  exact outer.trans (by rw [inner])

/-- The rotation amount of format S has no must-be-zero bit set (R44). -/
theorem shift_pad_zero : ∀ s : Shift, (0#5 ++ s : Byte) &&& 0xF8#8 = 0#8 := by decide

/-- A row admits the words whose fields, masked, are the row's. -/
theorem admits_commandWord {r : OpcodeRow} {op a b mo ma mb : Byte}
    (hmask : r.mask = commandWord mo ma mb)
    (hmatch : commandWord (op &&& mo) (a &&& ma) (b &&& mb) = r.matchBits) :
    r.admits (commandWord op a b) = true := by
  unfold OpcodeRow.admits
  rw [hmask, masked_commandWord, hmatch]
  exact beq_self_eq_true _

namespace EncodesToItsRow

/-- The command's word is the word of the command's own row of the opcode map (R42, R45). -/
def Statement (i : Instr) : Prop := ∃ r ∈ opcodeTable, r.mnemonic = i.mnemonic ∧ r.admits (encode i) = true

theorem xtime (a : Byte) : Statement (.xtime a) :=
  ⟨⟨"XTIME", 0x01#8, .u, 0x010000#24, 0xFF00FF#24⟩, by simp [opcodeTable], rfl,
    admits_commandWord (mo := 0xFF#8) (ma := 0x00#8) (mb := 0xFF#8) rfl (by simp [commandWord])⟩

theorem gfmul (a b : Byte) : Statement (.gfmul a b) :=
  ⟨⟨"GFMUL", 0x02#8, .m, 0x020000#24, 0xFF0000#24⟩, by simp [opcodeTable], rfl,
    admits_commandWord (mo := 0xFF#8) (ma := 0x00#8) (mb := 0x00#8) rfl (by simp [commandWord])⟩

theorem gfinv (a : Byte) : Statement (.gfinv a) :=
  ⟨⟨"GFINV", 0x03#8, .u, 0x030000#24, 0xFF00FF#24⟩, by simp [opcodeTable], rfl,
    admits_commandWord (mo := 0xFF#8) (ma := 0x00#8) (mb := 0xFF#8) rfl (by simp [commandWord])⟩

theorem rotl8 (x : Byte) (s : Shift) : Statement (.rotl8 x s) :=
  ⟨⟨"ROTL8", 0x04#8, .s, 0x040000#24, 0xFF00F8#24⟩, by simp [opcodeTable], rfl,
    admits_commandWord (mo := 0xFF#8) (ma := 0x00#8) (mb := 0xF8#8) rfl (by simp [commandWord, shift_pad_zero])⟩

theorem affine (x : Byte) : Statement (.affine x) :=
  ⟨⟨"AFFINE", 0x05#8, .u, 0x050000#24, 0xFF00FF#24⟩, by simp [opcodeTable], rfl,
    admits_commandWord (mo := 0xFF#8) (ma := 0x00#8) (mb := 0xFF#8) rfl (by simp [commandWord])⟩

theorem gensbox : Statement .gensbox :=
  ⟨⟨"GENSBOX", 0x06#8, .n, 0x060000#24, 0xFFFFFF#24⟩, by simp [opcodeTable], rfl,
    admits_commandWord (mo := 0xFF#8) (ma := 0xFF#8) (mb := 0xFF#8) rfl (by simp [commandWord])⟩

theorem genrcon : Statement .genrcon :=
  ⟨⟨"GENRCON", 0x07#8, .n, 0x070000#24, 0xFFFFFF#24⟩, by simp [opcodeTable], rfl,
    admits_commandWord (mo := 0xFF#8) (ma := 0xFF#8) (mb := 0xFF#8) rfl (by simp [commandWord])⟩

theorem sbox (i : Byte) : Statement (.sbox i) :=
  ⟨⟨"SBOX", 0x08#8, .u, 0x080000#24, 0xFF00FF#24⟩, by simp [opcodeTable], rfl,
    admits_commandWord (mo := 0xFF#8) (ma := 0x00#8) (mb := 0xFF#8) rfl (by simp [commandWord])⟩

theorem isbox (i : Byte) : Statement (.isbox i) :=
  ⟨⟨"ISBOX", 0x09#8, .u, 0x090000#24, 0xFF00FF#24⟩, by simp [opcodeTable], rfl,
    admits_commandWord (mo := 0xFF#8) (ma := 0x00#8) (mb := 0xFF#8) rfl (by simp [commandWord])⟩

theorem rcon (i : Byte) : Statement (.rcon i) :=
  ⟨⟨"RCON", 0x0a#8, .u, 0x0A0000#24, 0xFF00FF#24⟩, by simp [opcodeTable], rfl,
    admits_commandWord (mo := 0xFF#8) (ma := 0x00#8) (mb := 0xFF#8) rfl (by simp [commandWord])⟩

end EncodesToItsRow

end Sys2Proof.Laws
end

