-- ==== Sys2Proof/Tests/Slice0.lean ====
section
/-! SUPPORT. The model's own tests. Expected values come from spec/95_test_vectors.md (V1 to V10) and from the encodings of
spec/30_encoding.md. Every `witness_` theorem shows inputs that meet the hypotheses of the obligation it is named after. -/

namespace Sys2Proof.Tests

open Sys2Proof.Machine

/-! ## Ill-formed terms are refused (R49, R42, R44) -/

theorem test_wellFormed_xtime : (SourceLine.xtime 0x100).wellFormed = false := by decide
theorem test_wellFormed_gfmul_first : (SourceLine.gfmul 0x100 0).wellFormed = false := by decide
theorem test_wellFormed_gfmul_second : (SourceLine.gfmul 0 0x100).wellFormed = false := by decide
theorem test_wellFormed_gfinv : (SourceLine.gfinv 0x100).wellFormed = false := by decide
theorem test_wellFormed_rotl8_operand : (SourceLine.rotl8 0x100 0).wellFormed = false := by decide
theorem test_wellFormed_rotl8_amount : (SourceLine.rotl8 0xCA 8).wellFormed = false := by decide
theorem test_wellFormed_affine : (SourceLine.affine 0x100).wellFormed = false := by decide
theorem test_wellFormed_sbox : (SourceLine.sbox 0x100).wellFormed = false := by decide
theorem test_wellFormed_isbox : (SourceLine.isbox 0x100).wellFormed = false := by decide
theorem test_wellFormed_rcon : (SourceLine.rcon 256).wellFormed = false := by decide
theorem test_wellFormed_word : (SourceLine.word (2 ^ 24)).wellFormed = false := by decide
/-- R76, R44: an index above 9 is a legal command. -/
theorem test_wellFormed_rcon_ten : (SourceLine.rcon 10).wellFormed = true := by decide
/-- R49: the refused line has no word. -/
theorem test_assemble_refuses : (SourceLine.rotl8 0xCA 8).assemble = none := by decide
/-- R49, V3. -/
theorem test_assemble_rotl8 : (SourceLine.rotl8 0xCA 7).assemble = some 0x04CA07#24 := by decide

/-- R49: text is read, decimal only where the notation allows it. -/
theorem test_read_rotl8 : readLine "ROTL8 0xCA, 3  ; -> OK 0x56".toList = .line (.rotl8 0xCA 3) := by decide
theorem test_read_refuses_decimal : readLine "SBOX 10".toList = .refused := by decide
/-- R49's own example: its response is read in a comment only (log 15). -/
theorem test_read_refuses_response : readLine "GFMUL 0x57, 0x83 -> OK 0xC1".toList = .refused := by decide
/-- R49, V8. -/
theorem test_write_word : writeWord 0x04CA08#24 = ".word 0x04CA08".toList := by decide
/-- R49, V1. -/
theorem test_write_gfmul : writeCommand (.gfmul 0x57#8 0x83#8) = "GFMUL 0x57, 0x83".toList := by decide

/-- V8: the illegal words match no row of the opcode map. -/
theorem test_illegal_words_match_no_row :
    [0x000000#24, 0x0B0000#24, 0xFFFFFF#24, 0x800000#24, 0x015701#24, 0x030001#24, 0x04CA08#24, 0x04CA80#24,
      0x050010#24, 0x060100#24, 0x060001#24, 0x07FF00#24, 0x08FF01#24, 0x0A0A01#24].all (fun w => !legalWord w) = true := by
  decide

/-- V8: the decoder refuses the same words. -/
theorem test_illegal_words_do_not_decode :
    [0x000000, 0x0B0000, 0xFFFFFF, 0x800000, 0x015701, 0x030001, 0x04CA08, 0x04CA80, 0x050010, 0x060100, 0x060001,
      0x07FF00, 0x08FF01, 0x0A0A01].all (fun w => (decodeTableWord 24 w).isNone) = true := by decide

/-! ## Words written out bit by bit from R42's patterns: OP in bits 23:16, A in 15:8, B in 7:0 (R39) -/

theorem test_decode_xtime : decode 0b00000001_01010111_00000000#24 = .command (.xtime 0x57#8) := by decide
theorem test_decode_gfmul : decode 0b00000010_01010111_10000011#24 = .command (.gfmul 0x57#8 0x83#8) := by decide
theorem test_decode_gfinv : decode 0b00000011_01010011_00000000#24 = .command (.gfinv 0x53#8) := by decide
theorem test_decode_rotl8 : decode 0b00000100_11001010_00000011#24 = .command (.rotl8 0xCA#8 3#3) := by decide
theorem test_decode_affine : decode 0b00000101_11001010_00000000#24 = .command (.affine 0xCA#8) := by decide
theorem test_decode_gensbox : decode 0b00000110_00000000_00000000#24 = .command .gensbox := by decide
theorem test_decode_genrcon : decode 0b00000111_00000000_00000000#24 = .command .genrcon := by decide
theorem test_decode_sbox : decode 0b00001000_01010011_00000000#24 = .command (.sbox 0x53#8) := by decide
theorem test_decode_isbox : decode 0b00001001_11101101_00000000#24 = .command (.isbox 0xED#8) := by decide
theorem test_decode_rcon : decode 0b00001010_00001001_00000000#24 = .command (.rcon 9#8) := by decide

/-! ## One step each -/

/-- The response word a step delivered last. -/
def answerOf (o : Host.Outcome State Fault Refusal) : Option ResponseWord :=
  match o with
  | .next t => t.lastResponse.map Response.word
  | .fault _ => none
  | .refused _ => none

/-- A unit with these cells and flags, right after which the host presents the word w. -/
def presenting (w : CommandWord) (mem : Memory) (sv rv : Bool) : State :=
  { State.reset with mem := mem, sv := sv, rv := rv, host := [.command w] }

/-- V2: reduction, and none. -/
theorem test_xtime_reduces : answerOf (step (presenting 0x018000#24 [] false false)) = some 0x01B#12 := by decide
theorem test_xtime_all_ones : answerOf (step (presenting 0x01FF00#24 [] false false)) = some 0x0E5#12 := by decide
/-- V1. -/
theorem test_gfmul_general : answerOf (step (presenting 0x025783#24 [] false false)) = some 0x0C1#12 := by decide
theorem test_gfmul_top_bits : answerOf (step (presenting 0x028080#24 [] false false)) = some 0x09A#12 := by decide
/-- V4. -/
theorem test_gfinv_general : answerOf (step (presenting 0x035300#24 [] false false)) = some 0x0CA#12 := by
  decide +kernel
theorem test_gfinv_zero : answerOf (step (presenting 0x030000#24 [] false false)) = some 0x200#12 := by decide
/-- V3: bit 7 re-enters at bit 0; shift 0 is the identity. -/
theorem test_rotl8_wraps : answerOf (step (presenting 0x04B407#24 [] false false)) = some 0x05A#12 := by decide
theorem test_rotl8_by_zero : answerOf (step (presenting 0x04B400#24 [] false false)) = some 0x0B4#12 := by decide
/-- V3. -/
theorem test_affine_general : answerOf (step (presenting 0x05CA00#24 [] false false)) = some 0x0ED#12 := by decide
theorem test_affine_is_not_sbox : answerOf (step (presenting 0x055300#24 [] false false)) = some 0x074#12 := by decide
/-- V9: the generation commands answer OK 0x00. -/
theorem test_gensbox_answers : answerOf (step (presenting 0x060000#24 [] false false)) = some 0x000#12 := by decide
theorem test_genrcon_answers : answerOf (step (presenting 0x070000#24 [] false false)) = some 0x000#12 := by decide
/-- V9, V5: the lookup needs SV, and reads flat address 0x53. -/
theorem test_sbox_needs_sv : answerOf (step (presenting 0x080000#24 [] false true)) = some 0x400#12 := by decide
theorem test_sbox_reads : answerOf (step (presenting 0x085300#24 [(0x53, 0xED#8)] true false)) = some 0x0ED#12 := by
  decide
/-- V9, V6: the lookup needs SV, and reads flat address 256 + 0xED. -/
theorem test_isbox_needs_sv : answerOf (step (presenting 0x096300#24 [] false true)) = some 0x400#12 := by decide
theorem test_isbox_reads : answerOf (step (presenting 0x09ED00#24 [(493, 0x53#8)] true false)) = some 0x053#12 := by
  decide
/-- V9, V7: the index is checked before RV; the lookup reads flat address 512 + 9. -/
theorem test_rcon_index_first : answerOf (step (presenting 0x0A0A00#24 [] false false)) = some 0x300#12 := by decide
theorem test_rcon_reads : answerOf (step (presenting 0x0A0900#24 [(521, 0x36#8)] false true)) = some 0x036#12 := by
  decide
/-- V9: an illegal word. -/
theorem test_illegal_word : answerOf (step (presenting 0x030001#24 [] false false)) = some 0x100#12 := by decide
/-- The host's two questions of a word of the table: it runs right after reset. -/
theorem test_withFetchWord : answerOf (step (State.reset.withFetchWord 24 0x04CA07)) = some 0x065#12 := by decide

/-! ## The whole tables of V4, V5, V6 and V7 -/

/-- Byte k of a table whose rows are sixteen bytes each, the first byte the most significant. -/
def tableByte (rows : List Nat) (k : Nat) : Byte :=
  BitVec.ofNat 8 (rows.getD (k / 16) 0 >>> (8 * (15 - k % 16)))

/-- V4: gfinv, with 0x00 at index 0, where the function is not defined. -/
def v4 : List Nat :=
  [0x00018DF6CB527BD1E84F29C0B0E1E5C7, 0x74B4AA4B992B605F583FFDCCFF40EEB2,
    0x3A6E5AF1554DA8C9C10A98153044A2C2, 0x2C45926CF3396642F235206F77BB5919] ++
  [0x1DFE37672D31F569A764AB135425E909, 0xED5C05CA4C2487BF183E22F051EC6117,
    0x165EAFD349A63643F44791DF3393213B, 0x79B7978510B5BA3CB670D006A1FA8182] ++
  [0x837E7F809673BE569B9E95D9F702B9A4, 0xDE6A326DD88A84722A149F88F9DC899A,
    0xFB7C2EC38FB8654826C8124ACEE7D262, 0x0CE01FEF11757871A58E763DBDBC8657] ++
  [0x0B282FA3DAD4E40FA92753041BFCACE6, 0x7A07AE63C5DBE2EA948BC4D59DF8906B,
    0xB10DD6EBC60ECFAD084ED7E35D501EB3, 0x5B2338346846038CDD9C7DA0CD1A411C]

/-- V5: SBOX. -/
def v5 : List Nat :=
  [0x637C777BF26B6FC53001672BFED7AB76, 0xCA82C97DFA5947F0ADD4A2AF9CA472C0,
    0xB7FD9326363FF7CC34A5E5F171D83115, 0x04C723C31896059A071280E2EB27B275] ++
  [0x09832C1A1B6E5AA0523BD6B329E32F84, 0x53D100ED20FCB15B6ACBBE394A4C58CF,
    0xD0EFAAFB434D338545F9027F503C9FA8, 0x51A3408F929D38F5BCB6DA2110FFF3D2] ++
  [0xCD0C13EC5F974417C4A77E3D645D1973, 0x60814FDC222A908846EEB814DE5E0BDB,
    0xE0323A0A4906245CC2D3AC629195E479, 0xE7C8376D8DD54EA96C56F4EA657AAE08] ++
  [0xBA78252E1CA6B4C6E8DD741F4BBD8B8A, 0x703EB5664803F60E613557B986C11D9E,
    0xE1F8981169D98E949B1E87E9CE5528DF, 0x8CA1890DBFE6426841992D0FB054BB16]

/-- V6: INVSBOX. -/
def v6 : List Nat :=
  [0x52096AD53036A538BF40A39E81F3D7FB, 0x7CE339829B2FFF87348E4344C4DEE9CB,
    0x547B9432A6C2233DEE4C950B42FAC34E, 0x082EA16628D924B2765BA2496D8BD125] ++
  [0x72F8F66486689816D4A45CCC5D65B692, 0x6C704850FDEDB9DA5E154657A78D9D84,
    0x90D8AB008CBCD30AF7E45805B8B34506, 0xD02C1E8FCA3F0F02C1AFBD0301138A6B] ++
  [0x3A9111414F67DCEA97F2CFCEF0B4E673, 0x96AC7422E7AD3585E2F937E81C75DF6E,
    0x47F11A711D29C5896FB7620EAA18BE1B, 0xFC563E4BC6D279209ADBC0FE78CD5AF4] ++
  [0x1FDDA8338807C731B11210592780EC5F, 0x60517FA919B54A0D2DE57A9F93C99CEF,
    0xA0E03B4DAE2AF5B0C8EBBB3C83539961, 0x172B047EBA77D626E169146355210C7D]

/-- V4: every product of a byte and its entry is 1. -/
theorem test_v4_products : ∀ k : Fin 255, gfmul (BitVec.ofNat 8 (k + 1)) (tableByte v4 (k + 1)) = 1#8 := by decide +kernel

/-- V4 is gfinv. -/
theorem test_gfinv_is_v4 (a : Byte) (h : a ≠ 0x00#8) : gfinv a = tableByte v4 a.toNat := by
  have hpos : a.toNat ≠ 0 := fun e => h (BitVec.eq_of_toNat_eq e)
  have hlt := a.isLt
  have hk := test_v4_products ⟨a.toNat - 1, by omega⟩
  have hs : a.toNat - 1 + 1 = a.toNat := by omega
  simp only [hs, BitVec.ofNat_toNat, BitVec.setWidth_eq] at hk
  exact gfinv_unique hk

/-- V5: 0x63 at index 0, and affine of V4's entry elsewhere. -/
theorem test_v5_of_v4 : ∀ i : Byte, tableByte v5 i.toNat = if i = 0x00#8 then 0x63#8 else affine (tableByte v4 i.toNat) := by
  decide +kernel

/-- V5 is what GENSBOX gives SBOX. -/
theorem test_sboxEntry_is_v5 (i : Byte) : sboxEntry i = tableByte v5 i.toNat := by
  rw [test_v5_of_v4 i]
  unfold sboxEntry
  split
  · rfl
  · rename_i h
    rw [test_gfinv_is_v4 i h]

/-- V6 undoes V5. -/
theorem test_v6_of_v5 : ∀ j : Byte, tableByte v5 (tableByte v6 j.toNat).toNat = j := by decide +kernel

/-- V5 is what GENSBOX writes at the flat addresses 0..255. -/
theorem test_gensbox_writes_v5 (m : Memory) (i : Byte) :
    (writeSboxTables m).read (sboxAddr i) = some (tableByte v5 i.toNat) :=
  test_sboxEntry_is_v5 i ▸ read_writeSboxTables_sbox m i

/-- V6 is what GENSBOX writes at the flat addresses 256..511. -/
theorem test_gensbox_writes_v6 (m : Memory) (j : Byte) :
    (writeSboxTables m).read (invSboxAddr j) = some (tableByte v6 j.toNat) := by
  have h := read_writeSboxTables_invSbox m (tableByte v6 j.toNat)
  rwa [test_sboxEntry_is_v5, test_v6_of_v5] at h

/-- V7: the Rcon table of three seeds. -/
theorem test_genrcon_v7 :
    (List.range 10).map (rconEntry 0x01#8) =
      [0x01#8, 0x02#8, 0x04#8, 0x08#8, 0x10#8, 0x20#8, 0x40#8, 0x80#8, 0x1B#8, 0x36#8] ∧
    (List.range 10).map (rconEntry 0x8D#8) =
      [0x8D#8, 0x01#8, 0x02#8, 0x04#8, 0x08#8, 0x10#8, 0x20#8, 0x40#8, 0x80#8, 0x1B#8] ∧
    (List.range 10).map (rconEntry 0xFF#8) =
      [0xFF#8, 0xE5#8, 0xD1#8, 0xB9#8, 0x69#8, 0xD2#8, 0xBF#8, 0x65#8, 0xCA#8, 0x8F#8] := by decide

/-! ## The host's codec and verifier (V10) -/

/-- The tables V5, V6 and the first row of V7. -/
def vectorTables : Tables where
  sbox := Vector.ofFn fun i : Fin 256 => tableByte v5 i.val
  inverseSbox := Vector.ofFn fun i : Fin 256 => tableByte v6 i.val
  rcon := Vector.ofFn fun i : Fin 10 => rconEntry 0x01#8 i.val

theorem test_truncated_empty : decodeBlob [] = .error .truncatedInput := by decide
theorem test_truncated_by_one : decodeBlob (List.replicate 521 0x00#8) = .error .truncatedInput := by decide +kernel
theorem test_blob_bytes :
    [0, 83, 255, 256, 355, 278, 511, 512, 521].map (fun k => vectorTables.encode.getD k 0xEE#8) =
      [0x63#8, 0xED#8, 0x16#8, 0x52#8, 0x00#8, 0xFF#8, 0x7D#8, 0x01#8, 0x36#8] := by decide +kernel
theorem test_bijection_first_index :
    firstBijectionViolation vectorTables.sbox (vectorTables.inverseSbox.set 0x63 0x01#8) =
      some { index := 0, image := 0x63#8, back := 0x01#8 } := by decide +kernel
theorem test_mismatch_last_byte :
    firstMismatchIn .rcon vectorTables.rcon (vectorTables.rcon.set 9 0x37#8) =
      some { table := .rcon, index := 9, expected := 0x36#8, actual := 0x37#8 } := by decide +kernel
theorem test_mismatch_order :
    (firstMismatch vectorTables
      { vectorTables with sbox := vectorTables.sbox.set 5 0x00#8, rcon := vectorTables.rcon.set 0 0x00#8 }).map
      (fun r => (r.table, r.index)) = some (.sbox, 5) := by decide +kernel

/-- V6 undoes V5 in the order the verifier checks. -/
theorem test_v5_then_v6 : ∀ i : Fin 256, (tableByte v6 (tableByte v5 i.val).toNat).toNat = i.val := by decide +kernel

/-- V10: the check of V5 and V6 answers true. -/
theorem test_bijection_holds : checkBijection vectorTables.sbox vectorTables.inverseSbox = true := by
  have none_at (i : Fin 256) : bijectionViolationAt vectorTables.sbox vectorTables.inverseSbox i = none := by
    have h := test_v5_then_v6 i
    simp only [bijectionViolationAt, vectorTables, Fin.getElem_fin, Vector.getElem_ofFn, BitVec.val_toFin, h, if_true]
  unfold checkBijection firstBijectionViolation
  rw [List.findSome?_eq_none_iff.mpr fun i _ => none_at i]
  rfl

/-! ## Witnesses -/

/-- The unit after GENSBOX alone. -/
def sboxReady : State := State.reset.genSboxTables.setSv

/-- The unit after GENRCON alone. -/
def rconReady : State := State.reset.genRconTable.setRv

/-- The unit after both generations. -/
def ready : State := sboxReady.genRconTable.setRv

theorem reset_inv : State.reset.Inv := by constructor <;> simp [State.reset, Memory.wf, State.memRead]
theorem sboxReady_inv : sboxReady.Inv := reset_inv.genSbox
theorem rconReady_inv : rconReady.Inv := reset_inv.genRcon
theorem ready_inv : ready.Inv := sboxReady_inv.genRcon

theorem ready_sbox (i : Byte) : ready.memRead (sboxAddr i) = some (sboxEntry i) := ready_inv.sboxHeld rfl i
theorem ready_invSbox (i : Byte) : ready.memRead (invSboxAddr (sboxEntry i)) = some i := ready_inv.invSboxHeld rfl i
theorem ready_rcon {i : Nat} (h : i < rconSize) : ready.memRead (rconAddr i) = some (rconEntry 0x01#8 i) :=
  ready_inv.rconHeld rfl i h

theorem exec_sbox_ready (i : Byte) : exec (.sbox i) ready = .next (ready.answered .ok (sboxEntry i)) :=
  exec_sbox_of_held rfl (ready_sbox i)

/-- Two cells only, so that a state with a flag and a value is written out whole. -/
def heldState : State := { State.reset with mem := [(0x53, 0xED#8), (493, 0x53#8), (521, 0x36#8)], sv := true, rv := true }

theorem witness_DecodeIsTotalAndEncodeInvertsIt :
    ((0x00#8 = 0x00#8 ∨ 0x0B ≤ (0x00#8).toNat) ∧ (0x0B#8 = 0x00#8 ∨ 0x0B ≤ (0x0B#8).toNat) ∧
      (0xFF#8 = 0x00#8 ∨ 0x0B ≤ (0xFF#8).toNat)) ∧
    decode 0x04CA08#24 = .illegal .mustBeZero ∧ decode 0x04CA07#24 = .command (.rotl8 0xCA#8 7#3) := by decide

theorem witness_OpcodeMapSelectsTheCommand :
    ∃ r ∈ opcodeTable, ∃ q ∈ opcodeTable, 0x0AFF00#24 &&& r.mask = r.matchBits ∧ 0x0AFF00#24 &&& q.mask = q.matchBits ∧
      r.mnemonic = "RCON" := by decide

theorem witness_ReservedOpcodesAreIllegal :
    (0x0B#8 = 0x00#8 ∨ 0x0B ≤ (0x0B#8).toNat) ∧ transact 0x0B0000#24 State.reset =
      .next (State.reset.answered .illegalCmd 0x00#8) := ⟨by decide, rfl⟩

theorem witness_AssembledLinesDecodeToTheirCommand :
    256 ≤ 256 ∧ 8 ≤ 8 ∧ 2 ^ 24 ≤ 2 ^ 24 ∧ (SourceLine.rcon 256).wellFormed = false := by decide

theorem witness_WrittenCommandsAreReadBack :
    ".word" ∈ ["XTIME", "GFINV", "AFFINE", "SBOX", "ISBOX", ".word"] := by decide

theorem witness_StepPerformsTheNextAction_command :
    (presenting 0x015700#24 [] false false).host = .command 0x015700#24 :: [] ∧
      decode 0x015700#24 = .command (.xtime 0x57#8) := by decide
theorem witness_StepPerformsTheNextAction_illegal :
    (presenting 0x000000#24 [] false false).host = .command 0x000000#24 :: [] ∧
      decode 0x000000#24 = .illegal .reservedOpcode := by decide
theorem witness_StepPerformsTheNextAction_reset :
    (ready.withHost [.reset]).host = .reset :: [] ∧
      (ready.withHost [.resetDuring 0x060000#24]).host = .resetDuring 0x060000#24 :: [] ∧ ready.host = [] :=
  ⟨rfl, rfl, rfl⟩

theorem witness_ResetLeavesNothingGenerated : (9#8).toNat ≤ 9 ∧ (0#8).toNat ≤ 9 := by decide

theorem witness_StepKeepsTheInvariant : ∃ s t : State, s.Inv ∧ step s = .next t ∧ t.sv = true :=
  ⟨State.reset.withHost [.command 0x060000#24], _, reset_inv.withHost _, rfl, rfl⟩

theorem witness_StepKeepsSeedAndMemoryForm : ∃ s t : State, step s = .next t ∧ s.mem.wf = true ∧ t.host = [] :=
  ⟨State.reset.withHost [.command 0x070000#24], _, rfl, rfl, rfl⟩

theorem witness_EveryTransactionIsAnswered : ready.Inv := ready_inv

theorem witness_OnlyGenerationWritesTables_sbox :
    ∃ t, transact 0x060000#24 State.reset = .next t ∧ ¬ State.reset.sameSbox t :=
  ⟨_, rfl, fun h => Bool.noConfusion h.1⟩
theorem witness_OnlyGenerationWritesTables_rcon :
    ∃ t, transact 0x070000#24 State.reset = .next t ∧ ¬ State.reset.sameRcon t :=
  ⟨_, rfl, fun h => Bool.noConfusion h.1⟩
theorem witness_OnlyGenerationWritesTables_reset : ∃ (a : HostAction) (s t : State), perform a s = .next t ∧
    ((s.sv = true ∧ t.sv = false) ∨ (s.rv = true ∧ t.rv = false)) :=
  ⟨.resetDuring 0x060000#24, ready, _, rfl, .inl ⟨rfl, rfl⟩⟩
theorem witness_OnlyGenerationWritesTables_held :
    ∃ (a : HostAction) (s t : State), s.Inv ∧ perform a s = .next t ∧ t.sv = true ∧ t.rv = true ∧ 0 < rconSize ∧
      9 < rconSize :=
  ⟨.command 0x015700#24, ready, _, ready_inv, rfl, rfl, rfl, by decide, by decide⟩

theorem witness_LookupOfAnUnwrittenEntryFaults :
    let s : State := { State.reset with sv := true, rv := true }
    s.sv = true ∧ s.memRead (sboxAddr 0xFF#8) = none ∧ s.memRead (invSboxAddr 0xFF#8) = none ∧ s.rv = true ∧
      (9#8).toNat ≤ 9 ∧ s.memRead (rconAddr (9#8).toNat) = none := by decide

theorem witness_FailingCommandChangesNothing : ∃ s t : State, ∃ w st d, transact w s = .next t ∧
    t.responses = s.responses ++ [{ st := st, data := d }] ∧ st ≠ .ok :=
  ⟨State.reset, _, 0x080000#24, .tableNotReady, 0x00#8, rfl, rfl, by decide⟩

theorem witness_ErrorsAreNotSticky : ∃ s t u : State, ∃ w v st d, transact w s = .next t ∧
    t.responses = s.responses ++ [{ st := st, data := d }] ∧ st ≠ .ok ∧ transact v s = .next u :=
  ⟨State.reset, _, _, 0x030000#24, 0x060000#24, .noInverse, 0x00#8, rfl, rfl, by decide, rfl⟩

theorem witness_ChecksAreMadeInOrder : ∃ s t : State, ∃ w st d, transact w s = .next t ∧
    t.responses = s.responses ++ [{ st := st, data := d }] ∧ 0x01#8 ≠ 0x00#8 ∧ 10 ≤ (10#8).toNat ∧
    (0x08#8 = 0x08#8 ∨ 0x08#8 = 0x09#8 ∨ 0x08#8 = 0x0A#8) :=
  ⟨State.reset, _, 0x0A0A00#24, .indexRange, 0x00#8, rfl, rfl, by decide, by decide, by decide⟩

theorem witness_IllegalStatusDependsOnTheWordAlone :
    0x060100#24 ∈ [0x000000#24, 0x0B0000#24, 0xFFFFFF#24, 0x010001#24, 0x04CA08#24, 0x060100#24] := by decide

theorem witness_NotReadyOnlyFromUngeneratedTables_other :
    Status.noInverse ≠ .ok ∧ Status.noInverse ≠ .tableNotReady ∧ answersStatus 0x030000#24 State.reset .noInverse :=
  ⟨by decide, by decide, _, _, rfl, rfl⟩
theorem witness_NotReadyOnlyFromUngeneratedTables_told_apart : ∃ t t' : State, ∃ r r', State.reset.Inv ∧ ready.Inv ∧
    State.reset.config = ready.config ∧ transact 0x080000#24 State.reset = .next t ∧ transact 0x080000#24 ready = .next t' ∧
    t.responses = State.reset.responses ++ [r] ∧ t'.responses = ready.responses ++ [r'] ∧ r ≠ r' :=
  ⟨_, _, _, _, reset_inv, ready_inv, rfl, rfl, exec_sbox_ready 0x00#8, rfl, rfl, by decide⟩
theorem witness_NotReadyOnlyFromUngeneratedTables_cured : ∃ t u : State, State.reset.Inv ∧
    exec .gensbox State.reset = .next t ∧ exec .genrcon State.reset = .next u ∧ (9#8).toNat ≤ 9 :=
  ⟨_, _, reset_inv, rfl, rfl, by decide⟩

theorem witness_XtimeAnswersTheDouble : 0x01#8 ≠ 0x00#8 ∧ gfmul 0x02#8 0x8D#8 = 0x01#8 := by decide

theorem witness_GfmulAnswersThePolynomialRemainder : ∃ q : BitVec 16, q.toNat < 2 ^ 7 ∧
    clmul (0x57#8 |>.setWidth 16) (0x83#8 |>.setWidth 16) = clmul reductionPolynomial q ^^^ (0xC1#8).setWidth 16 ∧
    0x80#8 ≠ 0x00#8 :=
  ⟨0x28#16, by decide⟩

theorem witness_FieldLawsHold : gfmul 0x00#8 0x57#8 = 0x00#8 ∧ 0x01#8 ≠ 0x00#8 ∧ gfmul 0x53#8 0xCA#8 = 0x01#8 ∧
    (0 < 50 ∧ 50 < 51) ∧ (0 < 254 ∧ 254 < 255) := by decide

theorem witness_GfinvIsTheUniqueInverse : 0xFF#8 ≠ 0x00#8 ∧ gfmul 0xFF#8 0x1C#8 = 0x01#8 := by decide

theorem witness_GfinvAnswersTheInverseOrRefuses :
    0x01#8 ≠ 0x00#8 ∧ gfmul 0x02#8 0x8D#8 = 0x01#8 := by decide

theorem witness_Rotl8AnswersTheRotation : (0x07#8).toNat < 8 ∧ 8 ≤ (0x08#8).toNat ∧ 7 < 8 := by decide

theorem witness_AffineAnswersTheXorOfRotations : 0x10#8 ≠ 0x00#8 := by decide

theorem witness_DerivedFieldFactsHold : (∀ x : Byte, x ≠ 0x00#8 → x ∈ inverseCandidates) ∧ 0xFF#8 ≠ 0x00#8 ∧ 7 < 8 :=
  ⟨fun _ h => mem_inverseCandidates h, by decide, by decide⟩

theorem witness_FieldCommandsArePure : (∃ a, Instr.gfinv 0x00#8 = .xtime a ∨ Instr.gfinv 0x00#8 = .gfinv a ∨
    Instr.gfinv 0x00#8 = .affine a) ∧ (∃ a b, Instr.gfmul 0x57#8 0x83#8 = .gfmul a b) ∧
    ∃ x sh, Instr.rotl8 0xCA#8 7#3 = .rotl8 x sh :=
  ⟨⟨0x00#8, .inr (.inl rfl)⟩, ⟨_, _, rfl⟩, ⟨_, _, rfl⟩⟩

theorem witness_GensboxWritesBothTables : ∃ t : State, exec .gensbox ready = .next t ∧ ready.Inv ∧ ready.sv = true ∧
    0xFF#8 ≠ 0x00#8 ∧ t.memRead (sboxAddr 0xFF#8) = some (sboxEntry 0xFF#8) ∧ (0x00#8 ≠ 0x00#8 ∨ 0x01#8 ≠ 0x00#8) :=
  ⟨_, rfl, ready_inv, rfl, by decide, read_writeSboxTables_sbox _ _, by decide⟩

theorem witness_SboxIsABijectionWithItsInverse : ready.Inv ∧ ready.sv = true ∧
    ready.memRead (sboxAddr 0x00#8) = some 0x63#8 := ⟨ready_inv, rfl, ready_sbox 0x00#8⟩

theorem witness_SboxMovesEveryIndex : ready.Inv ∧ ready.sv = true ∧ ready.memRead (sboxAddr 0x00#8) = some 0x63#8 :=
  ⟨ready_inv, rfl, ready_sbox 0x00#8⟩

/-- A unit whose seed is this byte. -/
def seeded (seed : Byte) : State := { State.reset with config := { rconSeed := seed } }

theorem witness_RconOfTheNamedSeeds : ∃ t u v : State, exec .genrcon (seeded 0x01#8) = .next t ∧
    exec .genrcon (seeded 0x8D#8) = .next u ∧ exec .genrcon (seeded 0x00#8) = .next v ∧
    (seeded 0x01#8).config.rconSeed = 0x01#8 ∧ (seeded 0x8D#8).config.rconSeed = 0x8D#8 ∧
    (seeded 0x00#8).config.rconSeed = 0x00#8 ∧ 9 < 10 :=
  ⟨_, _, _, rfl, rfl, rfl, rfl, rfl, rfl, by decide⟩

theorem witness_GenrconWritesTheDoublings : ∃ t u : State, State.reset.config.rconSeed = 0x01#8 ∧
    exec .genrcon State.reset = .next t ∧ exec (.rcon 8#8) t = .next u ∧ 8 < 9 ∧ 9 < 10 ∧ flatSize ≤ 522 ∧
    (0xFF#8 ≠ 0x00#8 ∨ 0x00#8 ≠ 0x00#8) :=
  ⟨rconReady.answered .ok 0x00#8, _, rfl, rfl,
    exec_rcon_of_held (by decide) rfl ((rconReady_inv.answered .ok 0x00#8).rconHeld rfl 8 (by decide)),
    by decide, by decide, by decide, by decide⟩

theorem witness_GenerationIsDeterministic : ∃ t t' u u' v : State, exec .gensbox State.reset = .next t ∧
    exec .gensbox rconReady = .next t' ∧ 511 < 512 ∧ State.reset.config = sboxReady.config ∧
    exec .genrcon State.reset = .next u ∧ exec .genrcon sboxReady = .next u' ∧ 9 < 10 ∧ ready.Inv ∧ ready.sv = true ∧
    ready.rv = true ∧ transact 0x060000#24 ready = .next v :=
  ⟨_, _, _, _, _, rfl, rfl, by decide, rfl, rfl, rfl, by decide, ready_inv, rfl, rfl, rfl⟩

theorem witness_GenerationOrderDoesNotMatter : rconReady.mem.wf = true := rconReady_inv.wf

theorem witness_SboxAnswersTheEntry : rconReady.sv = false ∧ heldState.sv = true ∧
    heldState.memRead (sboxAddr 0x53#8) = some 0xED#8 ∧ ready.Inv ∧ ready.sv = true ∧ 0x53#8 ≠ 0x00#8 ∧
    completesWith (.sbox 0x00#8) ready .ok 0x63#8 :=
  ⟨rfl, rfl, by decide, ready_inv, rfl, by decide, _, exec_sbox_ready 0x00#8, rfl, ⟨rfl, fun _ _ => rfl⟩,
    ⟨rfl, fun _ _ => rfl⟩, rfl, rfl⟩

theorem witness_IsboxAnswersTheInverseEntry : rconReady.sv = false ∧ heldState.sv = true ∧
    heldState.memRead (invSboxAddr 0xED#8) = some 0x53#8 ∧ ready.Inv ∧ ready.sv = true ∧ 0xFF#8 ≠ 0x00#8 :=
  ⟨rfl, rfl, by decide, ready_inv, rfl, by decide⟩

theorem witness_RconAnswersTheEntry : 10 ≤ (10#8).toNat ∧ (9#8).toNat ≤ 9 ∧ sboxReady.rv = false ∧ heldState.rv = true ∧
    heldState.memRead (rconAddr (9#8).toNat) = some 0x36#8 ∧ ready.Inv ∧ ready.rv = true ∧
    ready.config.rconSeed = 0x01#8 ∧ 0x01#8 ≠ 0x00#8 :=
  ⟨by decide, by decide, rfl, rfl, by decide, ready_inv, rfl, rfl, by decide⟩

theorem witness_LookupsAgreeWithEachOther : ready.Inv ∧ ready.sv = true ∧ ready.rv = true ∧ 8 < 9 ∧ (9#8).toNat ≤ 9 :=
  ⟨ready_inv, rfl, rfl, by decide, by decide⟩

/-- The boundary addresses of the three tables. -/
theorem witness_LookupsReadTheFlatTableSpace : ready.Inv ∧ ready.sv = true ∧ ready.rv = true ∧
    ∀ addr ∈ [0, 255, 256, 511, 512, 521], addr < 522 := ⟨ready_inv, rfl, rfl, by decide⟩

theorem witness_LookupAfterGenerationReadsTheGeneratedValue : ∃ t u : State, State.reset.Inv ∧
    exec .gensbox State.reset = .next t ∧ exec .genrcon State.reset = .next u ∧ (9#8).toNat ≤ 9 :=
  ⟨_, _, reset_inv, rfl, rfl, by decide⟩

theorem witness_RunAnswersEveryCommandInOrder : ∃ t : State, State.reset.Inv ∧
    transactAll ([0x060000#24] ++ [0x070000#24]) State.reset = .next t := ⟨_, reset_inv, rfl⟩

/-- The tables of V5, V6 and V7 are those of the unit after both generations. -/
theorem ready_holds_vectorTables : ready.holdsTables vectorTables := by
  refine ⟨fun i => ?_, fun i => ?_, fun i => ?_⟩
  · have h := ready_sbox (BitVec.ofNat 8 i.val)
    have e : (BitVec.ofNat 8 i.val).toNat = i.val := Nat.mod_eq_of_lt i.isLt
    rw [test_sboxEntry_is_v5, e, sboxAddr, e] at h
    simpa [vectorTables] using h
  · have e : (BitVec.ofNat 8 i.val).toNat = i.val := Nat.mod_eq_of_lt i.isLt
    have h := ready_invSbox (tableByte v6 (BitVec.ofNat 8 i.val).toNat)
    rw [test_sboxEntry_is_v5, test_v6_of_v5, e, invSboxAddr, e] at h
    simpa [vectorTables] using h
  · simpa [vectorTables, rconAddr] using ready_rcon i.isLt

theorem witness_BlobLaysOutTheThreeTables : ready.holdsTables vectorTables ∧ 0 < 522 ∧ 521 < 522 :=
  ⟨ready_holds_vectorTables, by decide, by decide⟩

theorem witness_DecodeBlobSlicesOrReportsTruncation :
    (List.replicate 521 0x00#8).length < 522 ∧ 522 ≤ (List.replicate 522 0x00#8).length := by decide +kernel

theorem witness_CheckBijectionFindsTheFirstViolation : ready.Inv ∧ ready.sv = true ∧ ready.holdsTables vectorTables ∧
    checkBijection vectorTables.sbox vectorTables.inverseSbox = true :=
  ⟨ready_inv, rfl, ready_holds_vectorTables, test_bijection_holds⟩

theorem witness_BijectionCheckCoversBothDirections :
    checkBijection vectorTables.sbox vectorTables.inverseSbox = true := test_bijection_holds

theorem witness_CheckRoundTripFindsTheFirstMismatch : ∃ T U : Tables, decodeBlob T.encode = .tables U :=
  ⟨vectorTables, _, dif_neg (by simp [Tables.encode])⟩

theorem witness_ReadOutFormsTheBlob : ready.Inv ∧ ready.sv = true ∧ ready.rv = true ∧ sboxReady.Inv ∧
    sboxReady.rv = false ∧ rconReady.Inv ∧ rconReady.sv = false :=
  ⟨ready_inv, rfl, rfl, sboxReady_inv, rfl, rconReady_inv, rfl⟩

theorem witness_PipelineVerifiesTheGeneratedTables : State.reset.Inv ∧ 0 < 522 ∧ 521 < 522 ∧ 0x01#8 ≠ 0x00#8 :=
  ⟨reset_inv, by decide, by decide, by decide⟩

/-- A cycle in which the host presents a word, the unit may finish and the host takes a response. -/
def busyCycle (w : CommandWord) : PortsIn :=
  { rst := false, cmdValid := true, cmd := w, rspReady := true, finishes := true }

/-- An idle unit after reset. -/
def idleUnit : ClockedUnit := { unit := State.reset, phase := .idle }

theorem witness_PortsCarryTheTransaction : idleUnit.unit.Inv ∧ idleUnit.phase = .idle ∧
    (∀ i ∈ [busyCycle 0x015700#24, busyCycle 0x060000#24, busyCycle 0x060000#24], i.rst = false) ∧
    idleUnit.delivered [busyCycle 0x015700#24, busyCycle 0x060000#24, busyCycle 0x060000#24] = [0x0AE#12] :=
  ⟨reset_inv, rfl, by decide, by decide⟩

theorem witness_ResetInputClearsTheUnit : ∃ (c : ClockedUnit) (i j : PortsIn), i.rst = true ∧ c.consistent ∧
    j.rst = false ∧ c.unit.sv = true ∧ c.unit.rv = true ∧ c.phase ≠ .idle :=
  ⟨{ unit := ready, phase := .answering 0x080000#24 (ready.answered .ok 0x63#8) },
    { busyCycle 0x080000#24 with rst := true }, busyCycle 0x080000#24, rfl,
    ⟨ready_inv, fun w t h => by cases h; exact exec_sbox_ready 0x00#8⟩, rfl, rfl, rfl, by simp⟩

theorem witness_HandshakeAnswersAnAcceptedCommand : ∃ (c b : ClockedUnit) (i j k : PortsIn) (t : State),
    c.phase = .idle ∧ b.phase ≠ .idle ∧ transact i.cmd c.unit = .next t ∧ i.rst = false ∧ i.cmdValid = true ∧
    i.finishes = true ∧ i.rspReady = true ∧ j.rst = false ∧ j.cmdValid = false ∧ j.finishes = false ∧ j.rspReady = false ∧
    k.rst = true :=
  ⟨idleUnit, { idleUnit with phase := .busy 0x015700#24 }, busyCycle 0x015700#24,
    { rst := false, cmdValid := false, cmd := 0x000000#24, rspReady := false, finishes := false },
    { busyCycle 0x015700#24 with rst := true }, _, rfl, by simp, rfl, rfl, rfl, rfl, rfl, rfl, rfl, rfl, rfl, rfl⟩

theorem witness_ResponseWordCarriesStatusAndData : ∃ (s t u : State) (r q : Response), s.Inv ∧
    transact 0x015700#24 s = .next t ∧ t.responses = s.responses ++ [r] ∧ r.st = .ok ∧ r.word = 0x0AE#12 ∧
    transact 0x000000#24 s = .next u ∧ u.responses = s.responses ++ [q] ∧ q.st = .illegalCmd ∧ opcodeTable ≠ [] :=
  ⟨State.reset, _, _, ⟨.ok, 0xAE#8⟩, ⟨.illegalCmd, 0x00#8⟩, reset_inv, rfl, rfl, rfl, rfl, rfl, rfl, rfl,
    by simp [opcodeTable]⟩

theorem witness_ResponseWordCarriesStatusAndData_errors : ∃ t u v : State,
    transact 0x030000#24 State.reset = .next t ∧ t.responses = State.reset.responses ++ [⟨.noInverse, 0x00#8⟩] ∧
    transact 0x0A0A00#24 State.reset = .next u ∧ u.responses = State.reset.responses ++ [⟨.indexRange, 0x00#8⟩] ∧
    transact 0x0A0900#24 State.reset = .next v ∧ v.responses = State.reset.responses ++ [⟨.tableNotReady, 0x00#8⟩] :=
  ⟨_, _, _, rfl, rfl, rfl, rfl, rfl, rfl⟩

end Sys2Proof.Tests
end

section
/-! What a command that answers does: it completes with OK, or it fails and leaves the unit as it was (R13). -/

namespace Sys2Proof.Machine

/-- The state t follows s by one response: OK, after whatever the command wrote, or an error with DATA 0x00 and nothing
written (R13). -/
def State.completedOrFailed (s t : State) : Prop :=
  (∃ (u : State) (d : Byte), u.responses = s.responses ∧ t = u.answered .ok d) ∨
    ∃ st : Status, st ≠ .ok ∧ t = s.answered st 0x00#8

theorem completedOrFailed_of_respond_ok {s t u : State} {d : Byte} (same : u.responses = s.responses)
    (h : respond .ok d u = .next t) : s.completedOrFailed t :=
  .inl ⟨u, d, same, by simpa using h.symm⟩

theorem completedOrFailed_of_raise {s t : State} {st : Status} (error : st ≠ .ok) (h : raise st s = .next t) :
    s.completedOrFailed t :=
  .inr ⟨st, error, by simpa using h.symm⟩

theorem completedOrFailed_of_respondEntry {s t : State} {addr : Nat} (h : respondEntry addr s = .next t) :
    s.completedOrFailed t :=
  let ⟨d, _, ht⟩ := respondEntry_next h
  .inl ⟨s, d, rfl, ht⟩

theorem exec_completedOrFailed {i : Instr} {s t : State} (h : exec i s = .next t) : s.completedOrFailed t := by
  cases i with
  | xtime a => exact completedOrFailed_of_respond_ok rfl h
  | gfmul a b => exact completedOrFailed_of_respond_ok rfl h
  | gfinv a =>
    simp only [exec, execGfinv] at h
    split at h
    · exact completedOrFailed_of_raise (by decide) h
    · exact completedOrFailed_of_respond_ok rfl h
  | rotl8 x sh => exact completedOrFailed_of_respond_ok rfl h
  | affine x => exact completedOrFailed_of_respond_ok rfl h
  | gensbox => exact completedOrFailed_of_respond_ok (u := s.genSboxTables.setSv) rfl h
  | genrcon => exact completedOrFailed_of_respond_ok (u := s.genRconTable.setRv) rfl h
  | sbox k =>
    simp only [exec, execSbox] at h
    split at h
    · exact completedOrFailed_of_respondEntry h
    · exact completedOrFailed_of_raise (by decide) h
  | isbox k =>
    simp only [exec, execIsbox] at h
    split at h
    · exact completedOrFailed_of_respondEntry h
    · exact completedOrFailed_of_raise (by decide) h
  | rcon k =>
    simp only [exec, execRcon] at h
    split at h
    · split at h
      · exact completedOrFailed_of_respondEntry h
      · exact completedOrFailed_of_raise (by decide) h
    · exact completedOrFailed_of_raise (by decide) h

theorem transact_completedOrFailed {w : CommandWord} {s t : State} (h : transact w s = .next t) :
    s.completedOrFailed t := by
  cases hw : decode w with
  | command i => exact exec_completedOrFailed (transact_of_command hw s ▸ h)
  | illegal why => exact completedOrFailed_of_raise (by decide) (transact_of_illegal hw s ▸ h)

/-- Delivering a response is the only difference it makes. -/
theorem State.onlyAnswered_answered (s : State) (st : Status) (d : Byte) :
    s.onlyAnswered (s.answered st d) st d :=
  ⟨rfl, ⟨rfl, fun _ _ => rfl⟩, ⟨rfl, fun _ _ => rfl⟩, rfl, rfl⟩

/-- Of the two ways a command answers, the status seen tells which: an error status is never a completion's. -/
theorem State.completedOrFailed.eq_answered_of_error {s t : State} {st : Status} {d : Byte} (h : s.completedOrFailed t)
    (response : t.responses = s.responses ++ [{ st := st, data := d }]) (error : st ≠ .ok) :
    t = s.answered st 0x00#8 := by
  rcases h with ⟨u, d', same, rfl⟩ | ⟨st', -, rfl⟩
  · have last : Response.mk .ok d' = ⟨st, d⟩ := by simpa [same] using response
    cases last
    exact absurd rfl error
  · have last : Response.mk st' 0x00#8 = ⟨st, d⟩ := by simpa using response
    cases last
    rfl

/-- Settles O15: a transaction with an error status is the one response added to the state, with DATA 0x00. -/
theorem failingCommandChangesNothing : Obligations.FailingCommandChangesNothing := by
  intro w s t st d next response error
  have failed : t = s.answered st 0x00#8 :=
    (transact_completedOrFailed next).eq_answered_of_error response error
  rw [failed]
  exact s.onlyAnswered_answered st 0x00#8

end Sys2Proof.Machine
end

section
/-! Encoding undoes decoding (R45): a word that decodes is the word of its command. -/

namespace Sys2Proof

/-- A command word is its three fields side by side (R39). -/
theorem commandWord_fields (w : CommandWord) : commandWord (opField w) (aField w) (bField w) = w := by
  have fields : opField w ++ (aField w ++ bField w) = w := by
    unfold opField aField bField
    rw [BitVec.extractLsb'_append_extractLsb'_eq_extractLsb' (by rfl),
      BitVec.extractLsb'_append_extractLsb'_eq_extractLsb' (by rfl)]
    exact BitVec.extractLsb'_eq_self
  exact BitVec.append_assoc.trans fields

/-- A word's opcode may be written as the decoder reads it, by its number. -/
theorem commandWord_of_opcode {w : CommandWord} {op : Byte} (hop : (opField w).toNat = op.toNat) :
    commandWord op (aField w) (bField w) = w := by
  rw [← BitVec.eq_of_toNat_eq hop, commandWord_fields]

/-- A byte with its must-be-zero bits zero is its rotation amount (R40, R44). -/
theorem shift_of_pad_zero : ∀ b : Byte, shiftPadOf b = 0#5 → 0#5 ++ shiftOf b = b := by decide

theorem ifZero_eq_command {zero : Bool} {i j : Instr} (h : ifZero zero i = .command j) : zero = true ∧ i = j := by
  cases zero with
  | true => exact ⟨rfl, by simpa [ifZero] using h⟩
  | false => cases h

section
variable {w : CommandWord} {i j : Instr} {op : Byte}

/-- Format N (R40): both operand fields are zero. -/
theorem encode_of_formatN (h : ifZero (aField w == 0x00#8 && bField w == 0x00#8) i = .command j)
    (row : encode i = commandWord op 0x00#8 0x00#8) (hop : (opField w).toNat = op.toNat) : encode j = w := by
  obtain ⟨zero, rfl⟩ := ifZero_eq_command h
  obtain ⟨ha, hb⟩ : aField w = 0x00#8 ∧ bField w = 0x00#8 := by simpa using zero
  rw [row, ← commandWord_of_opcode hop, ha, hb]

/-- Format U (R40): B is zero. -/
theorem encode_of_formatU (h : ifZero (bField w == 0x00#8) i = .command j)
    (row : encode i = commandWord op (aField w) 0x00#8) (hop : (opField w).toNat = op.toNat) : encode j = w := by
  obtain ⟨zero, rfl⟩ := ifZero_eq_command h
  have hb : bField w = 0x00#8 := by simpa using zero
  rw [row, ← hb, commandWord_of_opcode hop]

/-- Format S (R40): B[7:3] is zero. -/
theorem encode_of_formatS (h : ifZero (shiftPadOf (bField w) == 0#5) i = .command j)
    (row : encode i = commandWord op (aField w) (0#5 ++ shiftOf (bField w)))
    (hop : (opField w).toNat = op.toNat) : encode j = w := by
  obtain ⟨zero, rfl⟩ := ifZero_eq_command h
  rw [row, shift_of_pad_zero _ (by simpa using zero), commandWord_of_opcode hop]

end

/-- Encoding the command a word decodes to gives the word: one case for each row of the opcode map, by its format. -/
theorem encode_of_decode {w : CommandWord} {i : Instr} (h : decode w = .command i) : encode i = w := by
  unfold decode at h
  split at h
  case h_1 hop => exact encode_of_formatU h rfl hop
  case h_2 hop =>
    cases h
    exact commandWord_of_opcode hop
  case h_3 hop => exact encode_of_formatU h rfl hop
  case h_4 hop => exact encode_of_formatS h rfl hop
  case h_5 hop => exact encode_of_formatU h rfl hop
  case h_6 hop => exact encode_of_formatN h rfl hop
  case h_7 hop => exact encode_of_formatN h rfl hop
  case h_8 hop => exact encode_of_formatU h rfl hop
  case h_9 hop => exact encode_of_formatU h rfl hop
  case h_10 hop => exact encode_of_formatU h rfl hop
  case h_11 => cases h

end Sys2Proof
end

section
/-! What a transaction and a host action do to the tables and their flags (R24). -/

namespace Sys2Proof.Machine

/-- A next state of a transaction: a response and nothing else, or the generation its word asks for. -/
theorem transact_next {w : CommandWord} {s t : State} (h : transact w s = .next t) :
    (∃ st d, t = s.answered st d) ∨
    (w = encode .gensbox ∧ t = s.genSboxTables.setSv.answered .ok 0x00#8) ∨
    (w = encode .genrcon ∧ t = s.genRconTable.setRv.answered .ok 0x00#8) := by
  cases hw : decode w with
  | command i =>
    rw [transact_of_command hw] at h
    obtain answer | ⟨rfl, ht⟩ | ⟨rfl, ht⟩ := exec_next h
    · exact .inl answer
    · exact .inr (.inl ⟨(encode_of_decode hw).symm, ht⟩)
    · exact .inr (.inr ⟨(encode_of_decode hw).symm, ht⟩)
  | illegal why =>
    rw [transact_of_illegal hw] at h
    exact .inl ⟨.illegalCmd, 0x00#8, by simpa using h.symm⟩

/-- A next state of a host's action: the response to its command, or the reset unit. -/
theorem perform_next {a : HostAction} {s t : State} (h : perform a s = .next t) :
    (∃ w, a = .command w ∧ transact w s = .next t) ∨
    ((a = .reset ∨ ∃ w, a = .resetDuring w) ∧ t = s.resetUnit) := by
  cases a with
  | command w => exact .inl ⟨w, rfl, h⟩
  | reset => exact .inr ⟨.inl rfl, by simpa [perform] using h.symm⟩
  | resetDuring w => exact .inr ⟨.inr ⟨w, rfl⟩, by simpa [perform] using h.symm⟩

section
variable (s : State) (st : Status) (d : Byte)

theorem State.sameSbox_answered : s.sameSbox (s.answered st d) := ⟨rfl, fun _ _ => rfl⟩

theorem State.sameRcon_answered : s.sameRcon (s.answered st d) := ⟨rfl, fun _ _ => rfl⟩

/-- GENRCON leaves the substitution tables and SV alone. -/
theorem State.sameSbox_genRcon : s.sameSbox (s.genRconTable.setRv.answered st d) :=
  ⟨rfl, fun _ ha => read_writeRconTable_elsewhere s.config.rconSeed s.mem (.inl ha)⟩

/-- GENSBOX leaves the Rcon table and RV alone. -/
theorem State.sameRcon_genSbox : s.sameRcon (s.genSboxTables.setSv.answered st d) :=
  ⟨rfl, fun _ ha => read_writeSboxTables_above s.mem ha⟩

end

section
variable {w : CommandWord} {s t : State}

/-- A transaction that writes SBOX, INVSBOX or SV is GENSBOX. -/
theorem word_of_sbox_written (h : transact w s = .next t) (written : ¬ s.sameSbox t) : w = encode .gensbox := by
  obtain ⟨st, d, rfl⟩ | ⟨hw, -⟩ | ⟨-, rfl⟩ := transact_next h
  · exact absurd (s.sameSbox_answered st d) written
  · exact hw
  · exact absurd (s.sameSbox_genRcon .ok 0x00#8) written

/-- A transaction that writes RCON or RV is GENRCON. -/
theorem word_of_rcon_written (h : transact w s = .next t) (written : ¬ s.sameRcon t) : w = encode .genrcon := by
  obtain ⟨st, d, rfl⟩ | ⟨-, rfl⟩ | ⟨hw, -⟩ := transact_next h
  · exact absurd (s.sameRcon_answered st d) written
  · exact absurd (s.sameRcon_genSbox .ok 0x00#8) written
  · exact hw

/-- No transaction clears a valid flag. -/
theorem transact_keeps_flags (h : transact w s = .next t) :
    (s.sv = true → t.sv = true) ∧ (s.rv = true → t.rv = true) := by
  obtain ⟨st, d, rfl⟩ | ⟨-, rfl⟩ | ⟨-, rfl⟩ := transact_next h <;> simp

/-- Every transaction keeps the invariant. -/
theorem State.Inv.transact (inv : s.Inv) (h : transact w s = .next t) : t.Inv := by
  obtain ⟨st, d, rfl⟩ | ⟨-, rfl⟩ | ⟨-, rfl⟩ := transact_next h
  · exact inv.answered st d
  · exact inv.genSbox.answered .ok 0x00#8
  · exact inv.genRcon.answered .ok 0x00#8

end

/-- The reset unit meets the invariant: both flags are 0 and no entry holds a value. -/
theorem State.resetUnit_inv (s : State) : s.resetUnit.Inv := by
  constructor <;> simp [Memory.wf]

section
variable {a : HostAction} {s t : State}

/-- Only reset clears a valid flag. -/
theorem reset_of_flag_cleared (h : perform a s = .next t)
    (cleared : (s.sv = true ∧ t.sv = false) ∨ (s.rv = true ∧ t.rv = false)) :
    a = .reset ∨ ∃ w, a = .resetDuring w := by
  obtain ⟨w, rfl, hw⟩ | ⟨reset, -⟩ := perform_next h
  · obtain ⟨keepsSv, keepsRv⟩ := transact_keeps_flags hw
    obtain ⟨was, now⟩ | ⟨was, now⟩ := cleared
    · exact absurd (keepsSv was) (by simp [now])
    · exact absurd (keepsRv was) (by simp [now])
  · exact reset

/-- Every action of the host keeps the invariant. -/
theorem State.Inv.perform (inv : s.Inv) (h : perform a s = .next t) : t.Inv := by
  obtain ⟨w, -, hw⟩ | ⟨-, rfl⟩ := perform_next h
  · exact inv.transact hw
  · exact s.resetUnit_inv

end

/-- The value of an Rcon entry is the seed doubled as many times as the index says (R71). -/
theorem rconEntry_eq_applyTimes (seed : Byte) (i : Nat) : rconEntry seed i = applyTimes xtime i seed := by
  induction i with
  | zero => rfl
  | succ i ih => exact congrArg xtime ih

/-- Settles O13: the writers are read off the cases of a transaction, the clearing of flags off those of a host action, and
the values held off the invariant every action keeps. -/
theorem onlyGenerationWritesTables : Obligations.OnlyGenerationWritesTables := by
  refine ⟨fun _ _ _ => word_of_sbox_written, fun _ _ _ => word_of_rcon_written,
    fun _ _ _ => reset_of_flag_cleared, fun a s t inv h flag i => ?_, fun a s t inv h flag i hi => ?_⟩
  · have held := inv.perform h
    exact ⟨held.sboxHeld flag i, held.invSboxHeld flag i⟩
  · rw [← rconEntry_eq_applyTimes]
    exact (inv.perform h).rconHeld flag i hi

end Sys2Proof.Machine
end

section
/-! The fields of a word written as its three fields (R39), and decoding of a command's word (R45). -/

namespace Sys2Proof

section
variable (op a b : Byte)

@[simp] theorem opField_commandWord : opField (commandWord op a b) = op :=
  calc opField (commandWord op a b)
    _ = (op ++ a).extractLsb' 8 8 := BitVec.extractLsb'_append_eq_of_le (by decide)
    _ = op := BitVec.extractLsb'_append_eq_left

@[simp] theorem aField_commandWord : aField (commandWord op a b) = a :=
  calc aField (commandWord op a b)
    _ = (op ++ a).extractLsb' 0 8 := BitVec.extractLsb'_append_eq_of_le (by decide)
    _ = a := BitVec.extractLsb'_append_eq_right

@[simp] theorem bField_commandWord : bField (commandWord op a b) = b :=
  BitVec.extractLsb'_append_eq_right

end

theorem commandWord_inj {op a b op' a' b' : Byte} :
    commandWord op a b = commandWord op' a' b' ↔ op = op' ∧ a = a' ∧ b = b' := by
  constructor
  · intro h
    exact ⟨by simpa using congrArg opField h, by simpa using congrArg aField h, by simpa using congrArg bField h⟩
  · rintro ⟨rfl, rfl, rfl⟩
    rfl

/-- The must-be-zero bits of a rotation amount's byte are zero (R40, R44). -/
@[simp] theorem shiftPadOf_shift (sh : Shift) : shiftPadOf (0#5 ++ sh) = 0#5 := BitVec.extractLsb'_append_eq_left

@[simp] theorem shiftOf_shift (sh : Shift) : shiftOf (0#5 ++ sh) = sh := BitVec.extractLsb'_append_eq_right

/-- A command's word decodes to the command (R45). -/
theorem decode_encode (i : Instr) : decode (encode i) = .command i := by
  cases i <;> simp [encode, decode, ifZero]

end Sys2Proof
end

section
/-! The opcode map (R42): what a row's match and mask ask of the fields of a word. -/

namespace Sys2Proof

/-- What the must-be-zero bits of a format ask of the fields A and B (R40, R44). -/
def Format.fits : Format → Byte → Byte → Prop
  | .n, a, b => a = 0x00#8 ∧ b = 0x00#8
  | .u, _, b => b = 0x00#8
  | .s, _, b => shiftPadOf b = 0#5
  | .m, _, _ => True

/-- The bits of a word a format fixes: the whole of OP, and the must-be-zero bits of A and B (R40). -/
def Format.mask : Format → CommandWord
  | .n => commandWord 0xFF#8 0xFF#8 0xFF#8
  | .u => commandWord 0xFF#8 0x00#8 0xFF#8
  | .s => commandWord 0xFF#8 0x00#8 0xF8#8
  | .m => commandWord 0xFF#8 0x00#8 0x00#8

theorem row_match_mask : ∀ r ∈ opcodeTable, r.matchBits = commandWord r.opcode 0x00#8 0x00#8 ∧ r.mask = r.format.mask := by
  decide

theorem row_of_opcode : ∀ r ∈ opcodeTable, ∀ q ∈ opcodeTable, r.opcode = q.opcode → r = q := by decide

theorem row_of_mnemonic : ∀ r ∈ opcodeTable, ∀ q ∈ opcodeTable, r.mnemonic = q.mnemonic → r = q := by decide

theorem byte_and_ones (b : Byte) : b &&& 0xFF#8 = b := BitVec.and_allOnes

theorem byte_and_pad_eq_zero : ∀ b : Byte, b &&& 0xF8#8 = 0x00#8 ↔ shiftPadOf b = 0#5 := by decide

/-- Under its format's mask, a word is an opcode with nothing after it exactly when it has that opcode and its must-be-zero bits
are zero. -/
theorem masked_eq_opcode_iff (f : Format) (op op' a b : Byte) :
    commandWord op' a b &&& f.mask = commandWord op 0x00#8 0x00#8 ↔ op' = op ∧ f.fits a b := by
  cases f <;>
    simp [Format.mask, Format.fits, Laws.masked_commandWord, commandWord_inj, byte_and_ones, byte_and_pad_eq_zero]

/-- A row's pattern (R42), read field by field. -/
theorem matches_iff_fields {r : OpcodeRow} (hr : r ∈ opcodeTable) (w : CommandWord) :
    w &&& r.mask = r.matchBits ↔ opField w = r.opcode ∧ r.format.fits (aField w) (bField w) := by
  obtain ⟨hmatch, hmask⟩ := row_match_mask r hr
  rw [hmatch, hmask, ← masked_eq_opcode_iff, commandWord_fields]

/-- The fields that fit a row's format are the word of a command of that row. -/
theorem exists_encode_of_fits {r : OpcodeRow} (hr : r ∈ opcodeTable) {a b : Byte} (h : r.format.fits a b) :
    ∃ i : Instr, encode i = commandWord r.opcode a b ∧ i.mnemonic = r.mnemonic := by
  simp only [opcodeTable, List.mem_cons, List.not_mem_nil, or_false] at hr
  obtain rfl | rfl | rfl | rfl | rfl | rfl | rfl | rfl | rfl | rfl := hr
  · obtain rfl := h
    exact ⟨.xtime a, rfl, rfl⟩
  · exact ⟨.gfmul a b, rfl, rfl⟩
  · obtain rfl := h
    exact ⟨.gfinv a, rfl, rfl⟩
  · exact ⟨.rotl8 a (shiftOf b), congrArg (commandWord 0x04#8 a) (shift_of_pad_zero b h), rfl⟩
  · obtain rfl := h
    exact ⟨.affine a, rfl, rfl⟩
  · obtain ⟨rfl, rfl⟩ := h
    exact ⟨.gensbox, rfl, rfl⟩
  · obtain ⟨rfl, rfl⟩ := h
    exact ⟨.genrcon, rfl, rfl⟩
  · obtain rfl := h
    exact ⟨.sbox a, rfl, rfl⟩
  · obtain rfl := h
    exact ⟨.isbox a, rfl, rfl⟩
  · obtain rfl := h
    exact ⟨.rcon a, rfl, rfl⟩

/-- A command's word is the word of the row that bears its mnemonic (R42, R45). -/
theorem encode_matches_row (i : Instr) :
    ∃ r ∈ opcodeTable, r.mnemonic = i.mnemonic ∧ encode i &&& r.mask = r.matchBits := by
  have own : Laws.EncodesToItsRow.Statement i := by
    cases i with
    | xtime a => exact Laws.EncodesToItsRow.xtime a
    | gfmul a b => exact Laws.EncodesToItsRow.gfmul a b
    | gfinv a => exact Laws.EncodesToItsRow.gfinv a
    | rotl8 x s => exact Laws.EncodesToItsRow.rotl8 x s
    | affine x => exact Laws.EncodesToItsRow.affine x
    | gensbox => exact Laws.EncodesToItsRow.gensbox
    | genrcon => exact Laws.EncodesToItsRow.genrcon
    | sbox k => exact Laws.EncodesToItsRow.sbox k
    | isbox k => exact Laws.EncodesToItsRow.isbox k
    | rcon k => exact Laws.EncodesToItsRow.rcon k
  obtain ⟨r, hr, name, admitted⟩ := own
  exact ⟨r, hr, name, beq_iff_eq.mp admitted⟩

/-- A word of a row's pattern decodes to a command of that row, and only such a word does (R42). -/
theorem matches_iff_decodes {r : OpcodeRow} (hr : r ∈ opcodeTable) (w : CommandWord) :
    w &&& r.mask = r.matchBits ↔ ∃ i, decode w = .command i ∧ i.mnemonic = r.mnemonic := by
  constructor
  · intro hw
    obtain ⟨opcode, fits⟩ := (matches_iff_fields hr w).mp hw
    obtain ⟨i, word, name⟩ := exists_encode_of_fits hr fits
    rw [← opcode, commandWord_fields] at word
    exact ⟨i, word ▸ decode_encode i, name⟩
  · rintro ⟨i, hi, name⟩
    obtain ⟨q, hq, qname, hw⟩ := encode_matches_row i
    obtain rfl := row_of_mnemonic q hq r hr (qname.trans name)
    rwa [encode_of_decode hi] at hw

/-- Settles O3: a pattern fixes the opcode and the must-be-zero bits of its format, and no two rows share an opcode. -/
theorem opcodeMapSelectsTheCommand : Obligations.OpcodeMapSelectsTheCommand := by
  refine ⟨fun r hr => matches_iff_decodes hr, fun r hr q hq w hwr hwq => ?_, fun w => ⟨?_, ?_⟩, fun r hr => ?_⟩
  · obtain ⟨opcode, -⟩ := (matches_iff_fields hr w).mp hwr
    obtain ⟨opcode', -⟩ := (matches_iff_fields hq w).mp hwq
    exact row_of_opcode r hr q hq (opcode.symm.trans opcode')
  · rintro ⟨i, hi⟩
    obtain ⟨r, hr, -, hw⟩ := encode_matches_row i
    exact ⟨r, hr, encode_of_decode hi ▸ hw⟩
  · rintro ⟨r, hr, hw⟩
    obtain ⟨i, hi, -⟩ := (matches_iff_decodes hr w).mp hw
    exact ⟨i, hi⟩
  · exact row_match_mask r hr

end Sys2Proof
end

section
/-! Words that are no command (R43), and the one response every transaction delivers. -/

namespace Sys2Proof.Machine

/-- A word with a reserved opcode is illegal, whatever A and B hold (R43). -/
theorem decode_of_reserved {op : Byte} (reserved : op = 0x00#8 ∨ 0x0B ≤ op.toNat) (a b : Byte) :
    decode (commandWord op a b) = .illegal .reservedOpcode := by
  have number : op.toNat = 0 ∨ 0x0B ≤ op.toNat := reserved.imp_left (congrArg BitVec.toNat)
  unfold decode
  rw [opField_commandWord]
  split
  case h_11 => rfl
  all_goals omega

/-- A transaction delivers one response more (R46, R52). -/
theorem transact_responses_length {w : CommandWord} {s t : State} (h : transact w s = .next t) :
    t.responses.length = s.responses.length + 1 := by
  obtain ⟨st, d, rfl⟩ | ⟨-, rfl⟩ | ⟨-, rfl⟩ := transact_next h <;> simp

/-- Settles O4: decoding answers illegal for a reserved opcode and one thing for every word, and each transaction adds its
response. -/
theorem reservedOpcodesAreIllegal : Obligations.ReservedOpcodesAreIllegal := by
  refine ⟨fun op a b s reserved => ?_, fun s => ?_, fun w => ?_, fun w s t h => transact_responses_length h⟩
  · exact ⟨_, transact_of_illegal (decode_of_reserved reserved a b) s, s.onlyAnswered_answered _ _⟩
  · have zero : decode 0x000000#24 = .illegal .reservedOpcode := decode_of_reserved (.inl rfl) 0x00#8 0x00#8
    exact ⟨_, _, transact_of_illegal zero s, rfl⟩
  · cases decode w with
    | command i => exact .inl ⟨⟨i, rfl, fun j hj => (Decoded.command.inj hj).symm⟩, fun ⟨_, h⟩ => nomatch h⟩
    | illegal why => exact .inr ⟨⟨why, rfl⟩, fun ⟨_, h⟩ => nomatch h⟩

end Sys2Proof.Machine
end

section
/-! The response word (R46, R90), and the response a transaction delivers. -/

namespace Sys2Proof.Machine

section
variable (r : Response)

@[simp] theorem Response.word_status : r.word.extractLsb' 8 4 = r.st.code := BitVec.extractLsb'_append_eq_left

@[simp] theorem Response.word_data : r.word.extractLsb' 0 8 = r.data := BitVec.extractLsb'_append_eq_right

theorem Response.word_toNat : r.word.toNat = r.st.code.toNat * 2 ^ 8 + r.data.toNat :=
  calc r.word.toNat
    _ = r.st.code.toNat <<< 8 ||| r.data.toNat := BitVec.toNat_append ..
    _ = r.st.code.toNat <<< 8 + r.data.toNat := (Nat.shiftLeft_add_eq_or_of_lt r.data.isLt _).symm
    _ = r.st.code.toNat * 2 ^ 8 + r.data.toNat := by rw [Nat.shiftLeft_eq]

end

theorem Status.code_injective : ∀ st st' : Status, st.code = st'.code → st = st' := by
  rintro ⟨⟩ ⟨⟩ <;> decide

/-- The codes above 0x4 are not produced (R90). -/
theorem Status.code_le (st : Status) : st.code.toNat ≤ 4 := by
  cases st <;> decide

/-- A response is read back from its word. -/
theorem Response.word_injective {r q : Response} (h : r.word = q.word) : r = q := by
  have status : r.st = q.st := Status.code_injective _ _ (by simpa using congrArg (·.extractLsb' 8 4) h)
  have data : r.data = q.data := by simpa using congrArg (·.extractLsb' 0 8) h
  cases r
  cases q
  exact congrArg₂ Response.mk status data

/-- The byte a lookup answers from a flat address; 0x00 stands for an entry without a value, which no lookup answers. -/
def State.entry (s : State) (addr : Nat) : Byte := (s.memRead addr).getD 0x00#8

/-- The DATA of a command that completes: its result where it returns a byte, and 0x00 otherwise (R46). -/
def resultOf (s : State) : Instr → Byte
  | .xtime a => xtime a
  | .gfmul a b => gfmul a b
  | .gfinv a => gfinv a
  | .rotl8 x sh => rotl8 x sh
  | .affine x => affine x
  | .gensbox => 0x00#8
  | .genrcon => 0x00#8
  | .sbox k => s.entry (sboxAddr k)
  | .isbox k => s.entry (invSboxAddr k)
  | .rcon k => s.entry (rconAddr k.toNat)

/-- `Answers s dec r`: in the state s the unit may give the response r to what a word decodes to (R90). A command that completes
answers its result; an error answers DATA 0x00, each under the condition R91 to R94 name. -/
inductive Answers (s : State) : Decoded → Response → Prop where
  | completed (i : Instr) : Answers s (.command i) ⟨.ok, resultOf s i⟩
  | illegalCmd (why : IllegalWord) : Answers s (.illegal why) ⟨.illegalCmd, 0x00#8⟩
  | noInverse : Answers s (.command (.gfinv 0x00#8)) ⟨.noInverse, 0x00#8⟩
  | indexRange {k : Byte} (index : rconIndexLegal k = false) : Answers s (.command (.rcon k)) ⟨.indexRange, 0x00#8⟩
  | sboxNotReady (k : Byte) (flag : s.sv = false) : Answers s (.command (.sbox k)) ⟨.tableNotReady, 0x00#8⟩
  | isboxNotReady (k : Byte) (flag : s.sv = false) : Answers s (.command (.isbox k)) ⟨.tableNotReady, 0x00#8⟩
  | rconNotReady (k : Byte) (flag : s.rv = false) : Answers s (.command (.rcon k)) ⟨.tableNotReady, 0x00#8⟩

/-- The state t has delivered one response more than s, and it is one that answers dec. -/
def State.answeredBy (s t : State) (dec : Decoded) : Prop := ∃ r, t.responses = s.responses ++ [r] ∧ Answers s dec r

section
variable {s t u : State} {dec : Decoded} {i : Instr}

theorem answeredBy_of_respond {st : Status} {d : Byte} (same : u.responses = s.responses)
    (answer : Answers s dec ⟨st, d⟩) (h : respond st d u = .next t) : s.answeredBy t dec := by
  obtain rfl : u.answered st d = t := by simpa using h
  exact ⟨_, congrArg (· ++ _) same, answer⟩

/-- A lookup that answers an entry completes with the lookup's result. -/
theorem answeredBy_of_respondEntry {addr : Nat} (entry : resultOf s i = s.entry addr) (h : respondEntry addr s = .next t) :
    s.answeredBy t (.command i) := by
  obtain ⟨d, held, rfl⟩ := respondEntry_next h
  have data : resultOf s i = d := by rw [entry, State.entry, held, Option.getD_some]
  exact ⟨_, rfl, data ▸ Answers.completed i⟩

/-- The response of a command is one that answers it. -/
theorem exec_answeredBy (h : exec i s = .next t) : s.answeredBy t (.command i) := by
  cases i with
  | xtime a => exact answeredBy_of_respond rfl (.completed _) h
  | gfmul a b => exact answeredBy_of_respond rfl (.completed _) h
  | gfinv a =>
    simp only [exec, execGfinv] at h
    split at h
    case isTrue zero =>
      subst zero
      exact answeredBy_of_respond rfl .noInverse h
    case isFalse => exact answeredBy_of_respond rfl (.completed _) h
  | rotl8 x sh => exact answeredBy_of_respond rfl (.completed _) h
  | affine x => exact answeredBy_of_respond rfl (.completed _) h
  | gensbox => exact answeredBy_of_respond (u := s.genSboxTables.setSv) rfl (.completed _) h
  | genrcon => exact answeredBy_of_respond (u := s.genRconTable.setRv) rfl (.completed _) h
  | sbox k =>
    simp only [exec, execSbox] at h
    split at h
    case h_1 => exact answeredBy_of_respondEntry rfl h
    case h_2 flag => exact answeredBy_of_respond rfl (.sboxNotReady k flag) h
  | isbox k =>
    simp only [exec, execIsbox] at h
    split at h
    case h_1 => exact answeredBy_of_respondEntry rfl h
    case h_2 flag => exact answeredBy_of_respond rfl (.isboxNotReady k flag) h
  | rcon k =>
    simp only [exec, execRcon] at h
    split at h
    case isTrue =>
      split at h
      case h_1 => exact answeredBy_of_respondEntry rfl h
      case h_2 flag => exact answeredBy_of_respond rfl (.rconNotReady k flag) h
    case isFalse index => exact answeredBy_of_respond rfl (.indexRange (by simpa using index)) h

/-- The response of a transaction is one that answers what its word decodes to. -/
theorem transact_answeredBy {w : CommandWord} (h : transact w s = .next t) : s.answeredBy t (decode w) := by
  cases hw : decode w with
  | command i => exact exec_answeredBy (transact_of_command hw s ▸ h)
  | illegal why => exact answeredBy_of_respond rfl (.illegalCmd why) ((transact_of_illegal hw s).symm.trans h)

end

/-- The S-box takes every value (R70). -/
theorem sboxEntry_surjective : Function.Surjective sboxEntry :=
  Finite.surjective_of_injective fun _ _ => sboxEntry_injective

section
variable {s : State}

/-- With the invariant every command answers: a lookup whose flag is 1 finds its entry held. -/
theorem exec_answers_of_inv (inv : s.Inv) (i : Instr) : ∃ t, exec i s = .next t := by
  cases i with
  | xtime a => exact ⟨_, rfl⟩
  | gfmul a b => exact ⟨_, rfl⟩
  | gfinv a =>
    simp only [exec, execGfinv]
    split <;> exact ⟨_, rfl⟩
  | rotl8 x sh => exact ⟨_, rfl⟩
  | affine x => exact ⟨_, rfl⟩
  | gensbox => exact ⟨_, rfl⟩
  | genrcon => exact ⟨_, rfl⟩
  | sbox k =>
    cases flag : s.sv with
    | true => exact ⟨_, exec_sbox_of_held flag (inv.sboxHeld flag k)⟩
    | false => exact ⟨s.answered .tableNotReady 0x00#8, by simp [exec, execSbox, flag]⟩
  | isbox k =>
    cases flag : s.sv with
    | true =>
      obtain ⟨j, rfl⟩ := sboxEntry_surjective k
      exact ⟨_, exec_isbox_of_held flag (inv.invSboxHeld flag j)⟩
    | false => exact ⟨s.answered .tableNotReady 0x00#8, by simp [exec, execIsbox, flag]⟩
  | rcon k =>
    by_cases index : k.toNat ≤ 9
    · cases flag : s.rv with
      | true => exact ⟨_, exec_rcon_of_held index flag (inv.rconHeld flag _ (Nat.lt_succ_of_le index))⟩
      | false => exact ⟨s.answered .tableNotReady 0x00#8, by simp [exec, execRcon, rconIndexLegal, index, flag]⟩
    · exact ⟨s.answered .indexRange 0x00#8, by simp [exec, execRcon, rconIndexLegal, index]⟩

/-- With the invariant every word is answered (R52). -/
theorem transact_answers_of_inv (inv : s.Inv) (w : CommandWord) : ∃ t, transact w s = .next t := by
  cases hw : decode w with
  | command i => exact transact_of_command hw s ▸ exec_answers_of_inv inv i
  | illegal why => exact ⟨_, transact_of_illegal hw s⟩

end

section
variable {s : State} {dec : Decoded} {r : Response} (answer : Answers s dec r)
include answer

/-- An error's DATA is 0x00 (R13, R46). -/
theorem Answers.data_of_error (error : r.st ≠ .ok) : r.data = 0x00#8 := by
  cases answer with
  | completed i => exact absurd rfl error
  | _ => rfl

theorem Answers.illegalCmd_iff : r.st = .illegalCmd ↔ ∃ why, dec = .illegal why := by
  cases answer <;> simp

/-- ERR_NO_INVERSE comes from GFINV alone (R90, R92). -/
theorem Answers.gfinv_of_noInverse (h : r.st = .noInverse) : ∃ a, dec = .command (.gfinv a) := by
  cases answer with
  | noInverse => exact ⟨_, rfl⟩
  | _ => cases h

/-- ERR_INDEX_RANGE comes from RCON alone (R90, R93). -/
theorem Answers.rcon_of_indexRange (h : r.st = .indexRange) : ∃ k, dec = .command (.rcon k) := by
  cases answer with
  | indexRange index => exact ⟨_, rfl⟩
  | _ => cases h

/-- ERR_TABLE_NOT_READY comes from the three lookups alone (R90, R94). -/
theorem Answers.lookup_of_tableNotReady (h : r.st = .tableNotReady) :
    ∃ k, dec = .command (.sbox k) ∨ dec = .command (.isbox k) ∨ dec = .command (.rcon k) := by
  cases answer with
  | sboxNotReady k => exact ⟨k, .inl rfl⟩
  | isboxNotReady k => exact ⟨k, .inr (.inl rfl)⟩
  | rconNotReady k => exact ⟨k, .inr (.inr rfl)⟩
  | _ => cases h

/-- The word of an error is its code with DATA 0x00 (R46). -/
theorem Answers.word_of_error {st : Status} (error : st ≠ .ok) (h : r.st = st) : r.word = st.code ++ 0x00#8 := by
  subst h
  rw [Response.word, answer.data_of_error error]

end

/-- A command that completes has its word answered OK. -/
theorem answersStatus_encode {i : Instr} {s u : State} {d : Byte} (h : exec i s = .next (u.answered .ok d))
    (same : u.responses = s.responses) : answersStatus (encode i) s .ok :=
  ⟨_, d, (transact_of_command (decode_encode i) s).trans h, congrArg (· ++ _) same⟩

/-- GENSBOX is answered OK in every state (R69). -/
theorem gensbox_answers_ok (s : State) : answersStatus (encode .gensbox) s .ok :=
  answersStatus_encode (u := s.genSboxTables.setSv) rfl rfl

/-- GENRCON is answered OK in every state (R72). -/
theorem genrcon_answers_ok (s : State) : answersStatus (encode .genrcon) s .ok :=
  answersStatus_encode (u := s.genRconTable.setRv) rfl rfl

/-- Every row of the opcode map has a command that returns OK once the tables are generated (R90). -/
theorem row_can_complete {row : OpcodeRow} (hrow : row ∈ opcodeTable) {s : State} (inv : s.Inv) (sv : s.sv = true)
    (rv : s.rv = true) : ∃ i : Instr, i.mnemonic = row.mnemonic ∧ answersStatus (encode i) s .ok := by
  simp only [opcodeTable, List.mem_cons, List.not_mem_nil, or_false] at hrow
  obtain rfl | rfl | rfl | rfl | rfl | rfl | rfl | rfl | rfl | rfl := hrow
  · exact ⟨.xtime 0#8, rfl, answersStatus_encode rfl rfl⟩
  · exact ⟨.gfmul 0#8 0#8, rfl, answersStatus_encode rfl rfl⟩
  · exact ⟨.gfinv 1#8, rfl, answersStatus_encode rfl rfl⟩
  · exact ⟨.rotl8 0#8 0#3, rfl, answersStatus_encode rfl rfl⟩
  · exact ⟨.affine 0#8, rfl, answersStatus_encode rfl rfl⟩
  · exact ⟨.gensbox, rfl, gensbox_answers_ok _⟩
  · exact ⟨.genrcon, rfl, genrcon_answers_ok _⟩
  · exact ⟨.sbox 0#8, rfl, answersStatus_encode (exec_sbox_of_held sv (inv.sboxHeld sv 0#8)) rfl⟩
  · exact ⟨.isbox (sboxEntry 0#8), rfl, answersStatus_encode (exec_isbox_of_held sv (inv.invSboxHeld sv 0#8)) rfl⟩
  · exact ⟨.rcon 0#8, rfl,
      answersStatus_encode (exec_rcon_of_held (by decide) rv (inv.rconHeld rv 0 (by decide))) rfl⟩

/-- Settles O55: the fields are read off the word, and every clause about a response off the cases of
`Answers`. -/
theorem responseWordCarriesStatusAndData : Obligations.ResponseWordCarriesStatusAndData := by
  refine ⟨fun r => ⟨r.word_status, r.word_data, r.word_toNat⟩, fun _ _ => Response.word_injective,
    rfl, rfl, rfl, rfl, rfl, Status.code_le, fun s inv w => ?_, fun w s t r h response => ?_, fun row hrow => ?_⟩
  · obtain ⟨t, h⟩ := transact_answers_of_inv inv w
    obtain ⟨r, response, -⟩ := transact_answeredBy h
    exact ⟨t, r, h, response⟩
  · obtain ⟨r', response', answer⟩ := transact_answeredBy h
    obtain rfl : r' = r := by simpa [response'] using response
    refine ⟨?_, answer.illegalCmd_iff, answer.word_of_error (by decide),
      fun h => ⟨answer.gfinv_of_noInverse h, answer.word_of_error (by decide) h⟩,
      fun h => ⟨answer.rcon_of_indexRange h, answer.word_of_error (by decide) h⟩,
      fun h => ⟨answer.lookup_of_tableNotReady h, answer.word_of_error (by decide) h⟩⟩
    split
    case isTrue ok =>
      generalize decode w = dec at answer ⊢
      cases answer with
      | completed i => cases i <;> rfl
      | _ => cases ok
    case isFalse error => exact answer.data_of_error error
  · have generated := State.reset.resetUnit_inv.genSbox.genRcon
    obtain ⟨i, name, completes⟩ := row_can_complete hrow generated rfl rfl
    exact ⟨i, _, name, generated, completes⟩

end Sys2Proof.Machine
end

section
/-! The five field commands (R56, R58, R60, R62, R64): what each answers, and which words with their opcodes are refused. -/

namespace Sys2Proof.Machine

section
variable (a b x : Byte) (sh : Shift) (s : State)

@[simp] theorem exec_xtime : exec (.xtime a) s = .next (s.answered .ok (xtime a)) := rfl

@[simp] theorem exec_gfmul : exec (.gfmul a b) s = .next (s.answered .ok (gfmul a b)) := rfl

theorem exec_gfinv_of_ne_zero (nonzero : a ≠ 0x00#8) : exec (.gfinv a) s = .next (s.answered .ok (gfinv a)) :=
  if_neg nonzero

@[simp] theorem exec_gfinv_zero : exec (.gfinv 0x00#8) s = .next (s.answered .noInverse 0x00#8) := rfl

@[simp] theorem exec_rotl8 : exec (.rotl8 x sh) s = .next (s.answered .ok (rotl8 x sh)) := rfl

@[simp] theorem exec_affine : exec (.affine x) s = .next (s.answered .ok (affine x)) := rfl

end

/-- A command that executes to one response has that response for its only effect. -/
theorem completesWith_of_exec {i : Instr} {s : State} {st : Status} {d : Byte}
    (h : exec i s = .next (s.answered st d)) : completesWith i s st d :=
  ⟨_, h, s.onlyAnswered_answered st d⟩

/-- The transaction of a command's word is the command's execution (R45, R52). -/
theorem transact_encode (i : Instr) (s : State) : transact (encode i) s = exec i s :=
  transact_of_command (decode_encode i) s

/-- A word with an opcode of the map whose operands do not fit the opcode's format is illegal (R44). -/
theorem exists_illegal_of_not_fits {op a b : Byte} {f : Format} (row : ∃ r ∈ opcodeTable, r.opcode = op ∧ r.format = f)
    (unfit : ¬ f.fits a b) : ∃ why, decode (commandWord op a b) = .illegal why := by
  obtain ⟨r, hr, rfl, rfl⟩ := row
  cases hw : decode (commandWord r.opcode a b) with
  | illegal why => exact ⟨why, rfl⟩
  | command i =>
    obtain ⟨q, hq, -, word⟩ := encode_matches_row i
    rw [encode_of_decode hw, matches_iff_fields hq, opField_commandWord, aField_commandWord, bField_commandWord] at word
    obtain ⟨opcode, fits⟩ := word
    obtain rfl := row_of_opcode r hr q hq opcode
    exact absurd fits unfit

/-- Such a word is answered ERR_ILLEGAL_CMD (R44, R91). -/
theorem answersStatus_illegalCmd_of_not_fits {op a b : Byte} (f : Format)
    (row : ∃ r ∈ opcodeTable, r.opcode = op ∧ r.format = f) (unfit : ¬ f.fits a b) (s : State) :
    answersStatus (commandWord op a b) s .illegalCmd := by
  obtain ⟨why, hw⟩ := exists_illegal_of_not_fits row unfit
  exact ⟨_, _, transact_of_illegal hw s, rfl⟩

/-- Settles O30: each field command executes to one response that its operands fix. -/
theorem fieldCommandsArePure : Obligations.FieldCommandsArePure := by
  rintro i (⟨a, rfl | rfl | rfl⟩ | ⟨a, b, rfl⟩ | ⟨x, sh, rfl⟩)
  · exact ⟨.ok, xtime a, fun s => completesWith_of_exec (exec_xtime a s)⟩
  · by_cases zero : a = 0x00#8
    · subst zero
      exact ⟨.noInverse, 0x00#8, fun s => completesWith_of_exec (exec_gfinv_zero s)⟩
    · exact ⟨.ok, gfinv a, fun s => completesWith_of_exec (exec_gfinv_of_ne_zero a s zero)⟩
  · exact ⟨.ok, affine a, fun s => completesWith_of_exec (exec_affine a s)⟩
  · exact ⟨.ok, gfmul a b, fun s => completesWith_of_exec (exec_gfmul a b s)⟩
  · exact ⟨.ok, rotl8 x sh, fun s => completesWith_of_exec (exec_rotl8 x sh s)⟩

end Sys2Proof.Machine
end

section
/-! The inverse (R59, R60): what the search finds, and the one byte that is its own inverse. -/

namespace Sys2Proof.Machine

/-- A product is 0x00 only if a factor is. -/
theorem gfmul_ne_zero {a b : Byte} (ha : a ≠ 0x00#8) (hb : b ≠ 0x00#8) : gfmul a b ≠ 0x00#8 := by
  intro zero
  apply ha
  calc a
    _ = gfmul a (gfmul b (gfinv b)) := by rw [gfmul_gfinv hb, gfmul_one_right]
    _ = gfmul (gfmul a b) (gfinv b) := (gfmul_assoc ..).symm
    _ = 0x00#8 := by rw [zero, gfmul_zero_left]

/-- A search for an inverse, in any order, finds it if it is among the candidates. -/
theorem find?_inverse {a : Byte} {candidates : List Byte} (ha : a ≠ 0x00#8) (mem : gfinv a ∈ candidates) :
    (candidates.find? fun x => gfmul a x == 0x01#8) = some (gfinv a) := by
  cases search : candidates.find? fun x => gfmul a x == 0x01#8 with
  | none => exact absurd (gfmul_gfinv ha) (by simpa using List.find?_eq_none.mp search _ mem)
  | some x => rw [gfinv_unique (by simpa using List.find?_some search)]

/-- Squaring is additive, so it takes a byte to 0x01 only if it takes the byte's sum with 0x01 to 0x00. -/
theorem gfmul_self_eq_one_iff (a : Byte) : gfmul a a = 0x01#8 ↔ a = 0x01#8 := by
  constructor
  · intro square
    have zero : gfmul (a ^^^ 0x01#8) (a ^^^ 0x01#8) = 0x00#8 := by
      rw [gfmul_xor_left, gfmul_xor_right, gfmul_one_left, gfmul_one_right, square, BitVec.xor_comm 0x01#8 a,
        BitVec.xor_self]
    have sum : a ^^^ 0x01#8 = 0x00#8 := not_not.mp fun h => gfmul_ne_zero h h zero
    exact BitVec.xor_eq_zero_iff.mp sum
  · rintro rfl
    exact gfmul_one_left _

theorem gfinv_eq_self_iff {a : Byte} (ha : a ≠ 0x00#8) : gfinv a = a ↔ a = 0x01#8 := by
  rw [← gfmul_self_eq_one_iff]
  exact ⟨fun fixed => (congrArg (gfmul a) fixed).symm.trans (gfmul_gfinv ha), gfinv_unique⟩

/-- Settles O25: the inverse is unique because multiplication is associative, so whatever the search finds is it. -/
theorem gfinvIsTheUniqueInverse : Obligations.GfinvIsTheUniqueInverse :=
  ⟨fun _ ha => ⟨gfmul_gfinv ha, gfinv_ne_zero ha⟩, fun _ _ h => (gfinv_unique h).symm,
    fun _ ha => find?_inverse ha (mem_inverseCandidates (gfinv_ne_zero ha)), fun _ => gfinv_gfinv,
    fun _ => gfinv_eq_self_iff⟩

theorem gfinv_two : gfinv 0x02#8 = 0x8D#8 := gfinv_unique (by decide)

theorem gfinv_hex53 : gfinv 0x53#8 = 0xCA#8 := gfinv_unique (by decide)

theorem gfinv_hexFF : gfinv 0xFF#8 = 0x1C#8 := gfinv_unique (by decide)

/-- Settles O26: GFINV has one arm for a nonzero operand and one for 0x00; its row has format U. -/
theorem gfinvAnswersTheInverseOrRefuses : Obligations.GfinvAnswersTheInverseOrRefuses := by
  refine ⟨fun a s ha => ⟨completesWith_of_exec (exec_gfinv_of_ne_zero a s ha), gfinv_ne_zero ha⟩,
    fun s => completesWith_of_exec (exec_gfinv_zero s), fun a s => transact_encode (.gfinv a) s,
    fun a b s hb => ?_, fun a x => gfinv_unique, gfinv_unique (by decide), gfinv_two, gfinv_hexFF, gfinv_hex53,
    by decide, by decide, by decide, by decide⟩
  exact answersStatus_illegalCmd_of_not_fits .u (by decide) hb s

end Sys2Proof.Machine
end

section
/-! Doubling (R55, R56): it is multiplication by 0x02, so 0x8D undoes it. -/

namespace Sys2Proof.Machine

/-- Doubling may be moved from one factor to the other. -/
theorem gfmul_xtime (a b : Byte) : gfmul a (xtime b) = xtime (gfmul a b) := by
  rw [gfmul_comm, ← xtime_gfmul, gfmul_comm]

/-- Multiplication by the inverse of 0x02 undoes doubling. -/
theorem gfmul_xtime_half (a : Byte) : gfmul (xtime a) 0x8D#8 = a :=
  calc gfmul (xtime a) 0x8D#8
    _ = gfmul a (xtime 0x8D#8) := by rw [gfmul_xtime, xtime_gfmul]
    _ = gfmul a 0x01#8 := by rw [show xtime 0x8D#8 = 0x01#8 by decide]
    _ = a := gfmul_one_right a

theorem xtime_bijective : Function.Bijective xtime :=
  Finite.injective_iff_bijective.mp (Function.LeftInverse.injective (g := (gfmul · 0x8D#8)) gfmul_xtime_half)

/-- Doubling without reduction, the nine-bit shift, is reduced by the whole polynomial 0x11B (R55): the shift's bit 8 is the bit
shifted out. -/
theorem xtime_setWidth_nine (a : Byte) : (xtime a).setWidth 9 =
    if (a.setWidth 9 <<< 1).getLsbD 8 then (a.setWidth 9 <<< 1) ^^^ 0x11B#9 else a.setWidth 9 <<< 1 := by
  have out : (a.setWidth 9 <<< 1).getLsbD 8 = a[7] := by simp
  rw [out, xtime, BitVec.getLsbD_eq_getElem (by decide)]
  apply BitVec.eq_of_getLsbD_eq
  intro i hi
  cases bit : a[7] <;> interval_cases i <;> simp [reductionConstant, bit]

/-- Settles O22: XTIME has one arm and format U; 0x8D undoes doubling, and is the one inverse of 0x02. -/
theorem xtimeAnswersTheDouble : Obligations.XtimeAnswersTheDouble := by
  refine ⟨fun a s => completesWith_of_exec (exec_xtime a s), fun a s => transact_encode (.xtime a) s,
    fun a b s hb => ?_, fun a => rfl, xtime_setWidth_nine, xtime_bijective, by decide, by decide, by decide, by decide,
    by decide, by decide, fun x => ⟨fun h => ?_, ?_⟩, by decide, by decide⟩
  · exact answersStatus_illegalCmd_of_not_fits .u (by decide) hb s
  · exact (gfinv_unique h).symm.trans gfinv_two
  · rintro rfl
    decide

end Sys2Proof.Machine
end

section
/-! Rotation (R61, R62) and the affine transform (R63, R64), bit by bit. -/

namespace Sys2Proof.Machine

theorem rotl8_eq_rotateLeft (x : Byte) (sh : Shift) : rotl8 x sh = x.rotateLeft sh.toNat := by
  rw [BitVec.rotateLeft_def, Nat.mod_eq_of_lt sh.isLt]
  rfl

/-- Bit i of the rotation is bit (i - s) mod 8 of the operand (R61). -/
theorem getLsbD_rotl8 (x : Byte) (sh : Shift) {i : Nat} (hi : i < 8) :
    (rotl8 x sh).getLsbD i = x.getLsbD ((i + 8 - sh.toNat) % 8) := by
  have hsh : sh.toNat < 8 := sh.isLt
  rw [rotl8_eq_rotateLeft, BitVec.getLsbD_rotateLeft, Nat.mod_eq_of_lt hsh]
  by_cases wraps : i < sh.toNat
  · rw [decide_eq_true wraps, cond_true, show (i + 8 - sh.toNat) % 8 = 8 - sh.toNat + i by omega]
  · rw [decide_eq_false wraps, cond_false, show (i + 8 - sh.toNat) % 8 = i - sh.toNat by omega, decide_eq_true hi, Bool.true_and]

theorem rotl8_zero (x : Byte) : rotl8 x 0#3 = x := by
  apply BitVec.eq_of_getLsbD_eq
  intro i hi
  rw [getLsbD_rotl8 _ _ hi]
  exact congrArg x.getLsbD (by simp [Nat.mod_eq_of_lt hi])

/-- A rotation is undone by the amount that makes a full turn with it (R62). -/
theorem rotl8_rotl8_neg (x : Byte) (sh : Shift) : rotl8 (rotl8 x sh) (0#3 - sh) = x := by
  have hsh : sh.toNat < 8 := sh.isLt
  apply BitVec.eq_of_getLsbD_eq
  intro i hi
  rw [getLsbD_rotl8 _ _ hi, getLsbD_rotl8 _ _ (Nat.mod_lt _ (by decide))]
  congr 1
  simp only [BitVec.toNat_sub, BitVec.toNat_ofNat]
  omega

/-- A rotation by 4 swaps the halves of a byte. -/
theorem rotl8_four (x : Byte) : rotl8 x 4#3 = x.extractLsb' 0 4 ++ x.extractLsb' 4 4 := by
  apply BitVec.eq_of_getLsbD_eq
  intro i hi
  rw [getLsbD_rotl8 _ _ hi, BitVec.getLsbD_append]
  interval_cases i <;> simp

theorem rotl8_xor (x y : Byte) (sh : Shift) : rotl8 (x ^^^ y) sh = rotl8 x sh ^^^ rotl8 y sh := by
  apply BitVec.eq_of_getLsbD_eq
  intro i hi
  simp only [BitVec.getLsbD_xor, getLsbD_rotl8 _ _ hi]

/-- A byte whose rotation amount is legal is the field B of that amount (R40, R41). -/
theorem shift_append_of_lt : ∀ b : Byte, b.toNat < 8 → 0#5 ++ BitVec.ofNat 3 b.toNat = b := by decide

/-- A rotation amount of 8 or more has a must-be-zero bit set (R44). -/
theorem shiftPadOf_ne_zero_of_le : ∀ b : Byte, 8 ≤ b.toNat → shiftPadOf b ≠ 0#5 := by decide

/-- Settles O27: ROTL8 has one arm and format S, and its bits are those of the library's rotation. -/
theorem rotl8AnswersTheRotation : Obligations.Rotl8AnswersTheRotation := by
  refine ⟨fun x sh s => completesWith_of_exec (exec_rotl8 x sh s), fun x b s hb => ?_,
    fun x b s hb => answersStatus_illegalCmd_of_not_fits .s (by decide) (shiftPadOf_ne_zero_of_le b hb) s,
    fun x sh i hi => getLsbD_rotl8 x sh hi, rotl8_zero, by decide, rotl8_rotl8_neg, rotl8_four, by decide, by decide,
    by decide⟩
  rw [← transact_encode, encode, shift_append_of_lt b hb]

/-- The affine transform without its constant is linear (R63). -/
def affineLinearPart (x : Byte) : Byte := x ^^^ rotl8 x 1#3 ^^^ rotl8 x 2#3 ^^^ rotl8 x 3#3 ^^^ rotl8 x 4#3

theorem affine_eq_linearPart (x : Byte) : affine x = affineLinearPart x ^^^ 0x63#8 := rfl

theorem affineLinearPart_xor (x y : Byte) :
    affineLinearPart (x ^^^ y) = affineLinearPart x ^^^ affineLinearPart y := by
  simp only [affineLinearPart, rotl8_xor]
  ac_rfl

theorem affine_xor (x y : Byte) : affine (x ^^^ y) = affine x ^^^ affine y ^^^ 0x63#8 := by
  simp only [affine_eq_linearPart, affineLinearPart_xor]
  rw [BitVec.xor_assoc (affineLinearPart x ^^^ _)]
  simp [BitVec.xor_assoc, BitVec.xor_comm]

/-- Settles O28: AFFINE has one arm and format U; it parts from the S-box at 0x53, whose inverse is another byte. -/
theorem affineAnswersTheXorOfRotations : Obligations.AffineAnswersTheXorOfRotations := by
  refine ⟨fun x s => completesWith_of_exec (exec_affine x s), fun x s => transact_encode (.affine x) s,
    fun x b s hb => answersStatus_illegalCmd_of_not_fits .u (by decide) hb s, fun x => ?_, affine_xor,
    by decide, by decide, by decide, by decide, gfinv_hexFF, by decide, fun same => ?_, by decide, by decide⟩
  · simp only [affine, rotl8_eq_rotateLeft]
    rfl
  · rw [sboxEntry_ne_zero_index (by decide), gfinv_hex53] at same
    exact absurd (affine_injective same) (by decide)

end Sys2Proof.Machine
end

section
/-! Multiplication (R57, R58): the multiplier's loop as a sum of doublings, and its result as the remainder of the carry-less
product on division by the reduction polynomial. -/

namespace Sys2Proof.Machine

theorem applyTimes_eq_iterate {α : Type} (f : α → α) (n : Nat) (a : α) : applyTimes f n a = f^[n] a := by
  induction n with
  | zero => rfl
  | succ n ih => rw [Function.iterate_succ_apply', ← ih, applyTimes]

/-! ### The loop as a sum of doublings -/

/-- The XOR, over the first n bits set in b, of a doubled that many times (R57). -/
def sumOfDoublings (a b : Byte) (n : Nat) : Byte :=
  (List.range n).foldl (fun p i => if b.getLsbD i then p ^^^ applyTimes xtime i a else p) 0x00#8

theorem sumOfDoublings_succ (a b : Byte) (n : Nat) : sumOfDoublings a b (n + 1) =
    if b.getLsbD n then sumOfDoublings a b n ^^^ applyTimes xtime n a else sumOfDoublings a b n := by
  rw [sumOfDoublings, List.range_succ, List.foldl_append]
  rfl

/-- After n turns the loop holds the sum of n terms, and a doubled n times. -/
theorem foldl_gfmulTurn_range (a b : Byte) (n : Nat) :
    (List.range n).foldl (gfmulTurn b) (0x00#8, a) = (sumOfDoublings a b n, applyTimes xtime n a) := by
  induction n with
  | zero => rfl
  | succ n ih =>
    rw [List.range_succ, List.foldl_append, ih, sumOfDoublings_succ]
    rfl

theorem gfmul_eq_sumOfDoublings (a b : Byte) : gfmul a b = sumOfDoublings a b 8 :=
  congrArg Prod.fst (foldl_gfmulTurn_range a b 8)

/-- Multiplication by a power of x is repeated doubling. -/
theorem gfmul_power (a : Byte) {i : Nat} (hi : i < 8) : gfmul a (1#8 <<< i) = applyTimes xtime i a := by
  induction i with
  | zero => exact gfmul_one_right a
  | succ i ih => rw [power_eq_xtime i (by omega), gfmul_xtime, ih (by omega), applyTimes]

/-! ### The carry-less product -/

/-- A polynomial where the bit is set, else the zero polynomial. -/
def gatedPoly (x : Bool) (p : BitVec 16) : BitVec 16 := if x then p else 0#16

theorem gatedPoly_xor (x y : Bool) (p : BitVec 16) : gatedPoly (x ^^ y) p = gatedPoly x p ^^^ gatedPoly y p := by
  cases x <;> cases y <;> simp [gatedPoly]

theorem clmul_eq_foldl_gatedPoly (a b : BitVec 16) :
    clmul a b = (List.range 16).foldl (fun p i => p ^^^ gatedPoly (b.getLsbD i) (a <<< i)) 0#16 := by
  unfold clmul gatedPoly
  congr
  funext p i
  split <;> simp

/-- The carry-less product distributes over the right operand: each of its sixteen terms does. -/
theorem clmul_xor_right (a b c : BitVec 16) : clmul a (b ^^^ c) = clmul a b ^^^ clmul a c := by
  have terms (is : List Nat) (p q : BitVec 16) :
      is.foldl (fun p i => p ^^^ gatedPoly ((b ^^^ c).getLsbD i) (a <<< i)) (p ^^^ q) =
        is.foldl (fun p i => p ^^^ gatedPoly (b.getLsbD i) (a <<< i)) p ^^^
          is.foldl (fun p i => p ^^^ gatedPoly (c.getLsbD i) (a <<< i)) q := by
    induction is generalizing p q with
    | nil => rfl
    | cons i is ih =>
      simp only [List.foldl_cons]
      rw [← ih, BitVec.getLsbD_xor, gatedPoly_xor]
      congr 1
      ac_rfl
  simp only [clmul_eq_foldl_gatedPoly]
  simpa using terms (List.range 16) 0#16 0#16

theorem clmul_zero_right (a : BitVec 16) : clmul a 0#16 = 0#16 := by
  simpa using clmul_xor_right a 0#16 0#16

theorem toNat_xor_lt {p q : BitVec 16} {n : Nat} (hp : p.toNat < 2 ^ n) (hq : q.toNat < 2 ^ n) :
    (p ^^^ q).toNat < 2 ^ n := by
  rw [BitVec.toNat_xor]
  exact Nat.xor_lt_two_pow hp hq

/-- A product with a power of x is a shift. -/
theorem clmul_power (a : BitVec 16) {i : Nat} (hi : i < 8) : clmul a (1#16 <<< i) = a <<< i := by
  interval_cases i <;> simp [clmul, List.range_succ]

theorem setWidth_power : ∀ i < 8, (1#8 <<< i).setWidth 16 = 1#16 <<< i := by decide

/-- The product of two bytes has degree at most 14 (R57). -/
theorem clmul_bytes_lt (a b : Byte) : (clmul (a.setWidth 16) (b.setWidth 16)).toNat < 2 ^ 15 := by
  refine byte_induction (P := fun b => (clmul (a.setWidth 16) (b.setWidth 16)).toNat < 2 ^ 15) ?_ ?_ ?_ b
  · simp [clmul_zero_right]
  · intro i hi
    rw [setWidth_power i hi, clmul_power _ hi, BitVec.toNat_shiftLeft, Nat.shiftLeft_eq]
    have ha : (a.setWidth 16).toNat < 2 ^ 8 := (BitVec.toNat_setWidth_of_le (by decide)).trans_lt a.isLt
    have power : 2 ^ i ≤ 2 ^ 7 := Nat.pow_le_pow_right (by decide) (by omega)
    calc (a.setWidth 16).toNat * 2 ^ i % 2 ^ 16
      _ ≤ (a.setWidth 16).toNat * 2 ^ i := Nat.mod_le ..
      _ ≤ (a.setWidth 16).toNat * 2 ^ 7 := Nat.mul_le_mul_left _ power
      _ < 2 ^ 15 := by omega
  · intro b c hb hc
    rw [BitVec.setWidth_xor, clmul_xor_right]
    exact toNat_xor_lt hb hc

/-! ### Division by the reduction polynomial -/

/-- A byte times x is its double and, where bit 7 is set, the reduction polynomial (R55). -/
theorem shiftLeft_one_eq_xtime (a : Byte) :
    a.setWidth 16 <<< 1 = gatedPoly (a.getLsbD 7) reductionPolynomial ^^^ (xtime a).setWidth 16 := by
  rw [xtime, BitVec.getLsbD_eq_getElem (by decide)]
  apply BitVec.eq_of_getLsbD_eq
  intro i hi
  cases bit : a[7] <;> interval_cases i <;> simp [gatedPoly, reductionPolynomial, reductionConstant, bit]

/-- The reduction polynomial shifted by i is its multiple by the power i of x. -/
theorem gatedPoly_shiftLeft (x : Bool) {i : Nat} (hi : i < 8) :
    gatedPoly x reductionPolynomial <<< i = clmul reductionPolynomial (gatedPoly x (1#16 <<< i)) := by
  cases x with
  | true => exact (clmul_power _ hi).symm
  | false => simp [gatedPoly, clmul_zero_right]

theorem gatedPoly_power_lt (x : Bool) {i : Nat} (hi : i < 8) : (gatedPoly x (1#16 <<< i)).toNat < 2 ^ (i + 1) := by
  interval_cases i <;> cases x <;> decide

/-- A byte shifted by i leaves the byte doubled i times as its remainder: each of the i shifts adds the reduction polynomial at
most once. -/
theorem exists_quotient_shiftLeft (a : Byte) {i : Nat} (hi : i < 8) : ∃ q : BitVec 16, q.toNat < 2 ^ i ∧
    a.setWidth 16 <<< i = clmul reductionPolynomial q ^^^ (applyTimes xtime i a).setWidth 16 := by
  induction i generalizing a with
  | zero => exact ⟨0#16, by decide, by simp [clmul_zero_right, applyTimes]⟩
  | succ i ih =>
    obtain ⟨q, hq, division⟩ := ih (xtime a) (by omega)
    refine ⟨gatedPoly (a.getLsbD 7) (1#16 <<< i) ^^^ q, ?_, ?_⟩
    · exact toNat_xor_lt (gatedPoly_power_lt _ (by omega)) (hq.trans (Nat.pow_lt_pow_succ (by decide)))
    · calc a.setWidth 16 <<< (i + 1)
        _ = a.setWidth 16 <<< 1 <<< i := by rw [← BitVec.shiftLeft_add, Nat.add_comm]
        _ = gatedPoly (a.getLsbD 7) reductionPolynomial <<< i ^^^ (xtime a).setWidth 16 <<< i := by
          rw [shiftLeft_one_eq_xtime, BitVec.shiftLeft_xor_distrib]
        _ = clmul reductionPolynomial (gatedPoly (a.getLsbD 7) (1#16 <<< i)) ^^^
            (clmul reductionPolynomial q ^^^ (applyTimes xtime i (xtime a)).setWidth 16) := by
          rw [gatedPoly_shiftLeft _ (by omega), division]
        _ = clmul reductionPolynomial (gatedPoly (a.getLsbD 7) (1#16 <<< i) ^^^ q) ^^^
            (applyTimes xtime (i + 1) a).setWidth 16 := by
          rw [clmul_xor_right, BitVec.xor_assoc, applyTimes_eq_iterate, applyTimes_eq_iterate,
            Function.iterate_succ_apply]

/-- The product of two bytes divided by the reduction polynomial leaves what the multiplier answers (R57). -/
theorem exists_quotient (a b : Byte) : ∃ q : BitVec 16, q.toNat < 2 ^ 7 ∧
    clmul (a.setWidth 16) (b.setWidth 16) = clmul reductionPolynomial q ^^^ (gfmul a b).setWidth 16 := by
  refine byte_induction (P := fun b => ∃ q : BitVec 16, q.toNat < 2 ^ 7 ∧
    clmul (a.setWidth 16) (b.setWidth 16) = clmul reductionPolynomial q ^^^ (gfmul a b).setWidth 16) ?_ ?_ ?_ b
  · exact ⟨0#16, by decide, by simp [clmul_zero_right, gfmul_zero_right]⟩
  · intro i hi
    obtain ⟨q, hq, division⟩ := exists_quotient_shiftLeft a hi
    refine ⟨q, hq.trans_le (Nat.pow_le_pow_right (by decide) (by omega)), ?_⟩
    rw [setWidth_power i hi, clmul_power _ hi, gfmul_power a hi, division]
  · rintro b c ⟨q, hq, division⟩ ⟨q', hq', division'⟩
    refine ⟨q ^^^ q', toNat_xor_lt hq hq', ?_⟩
    rw [BitVec.setWidth_xor, clmul_xor_right, division, division', clmul_xor_right, gfmul_xor_right,
      BitVec.setWidth_xor]
    ac_rfl

/-- No multiple of the reduction polynomial but zero has a degree below 8. -/
theorem eq_zero_of_clmul_reductionPolynomial_lt :
    ∀ n < 2 ^ 7, (clmul reductionPolynomial (BitVec.ofNat 16 n)).toNat < 2 ^ 8 → n = 0 := by decide

/-- The remainder of a division by the reduction polynomial is unique. -/
theorem remainder_unique {q q' : BitVec 16} {r r' : Byte} (hq : q.toNat < 2 ^ 7) (hq' : q'.toNat < 2 ^ 7)
    (same : clmul reductionPolynomial q ^^^ r.setWidth 16 = clmul reductionPolynomial q' ^^^ r'.setWidth 16) : r = r' := by
  have difference : clmul reductionPolynomial (q ^^^ q') = (r ^^^ r').setWidth 16 := by
    rw [← BitVec.xor_eq_zero_iff] at same ⊢
    rw [clmul_xor_right, BitVec.setWidth_xor, ← same]
    ac_rfl
  have width : ((r ^^^ r').setWidth 16).toNat = (r ^^^ r').toNat := BitVec.toNat_setWidth_of_le (by decide)
  have quotient : q ^^^ q' = 0#16 := by
    apply BitVec.eq_of_toNat_eq
    apply eq_zero_of_clmul_reductionPolynomial_lt _ (toNat_xor_lt hq hq')
    rw [BitVec.ofNat_toNat, BitVec.setWidth_eq, difference, width]
    exact (r ^^^ r').isLt
  rw [quotient, clmul_zero_right] at difference
  have remainder : r ^^^ r' = 0#8 := BitVec.eq_of_toNat_eq (width ▸ (congrArg BitVec.toNat difference).symm)
  exact BitVec.xor_eq_zero_iff.mp remainder

/-- Settles O23: GFMUL has one arm and format M; the loop is a sum of doublings, each the remainder of a shift, and remainders
add and are unique. -/
theorem gfmulAnswersThePolynomialRemainder : Obligations.GfmulAnswersThePolynomialRemainder := by
  refine ⟨fun a b s => completesWith_of_exec (exec_gfmul a b s), fun a b s => transact_encode (.gfmul a b) s,
    clmul_bytes_lt, exists_quotient, fun a b r q hq division => ?_, gfmul_eq_sumOfDoublings,
    fun a => ⟨gfmul_zero_right a, gfmul_zero_left a, gfmul_one_right a, gfmul_one_left a, gfmul_two a⟩, gfmul_comm,
    fun _ _ => gfmul_ne_zero, by decide, by decide, by decide, by decide, by decide, by decide, by decide⟩
  obtain ⟨q', hq', division'⟩ := exists_quotient a b
  exact remainder_unique hq hq' (division.symm.trans division')

end Sys2Proof.Machine
end

section
/-! Generation of the substitution tables (R68, R69, R70): what holds of tables that hold the generated values, however they came
to hold them. -/

namespace Sys2Proof.Machine

/-- SBOX and INVSBOX hold the generated values (R68), whatever SV is. -/
structure State.SboxGenerated (s : State) : Prop where
  sbox (i : Byte) : s.memRead (sboxAddr i) = some (sboxEntry i)
  invSbox (i : Byte) : s.memRead (invSboxAddr (sboxEntry i)) = some i

theorem State.Inv.sboxGenerated {s : State} (inv : s.Inv) (flag : s.sv = true) : s.SboxGenerated :=
  ⟨inv.sboxHeld flag, inv.invSboxHeld flag⟩

/-- GENSBOX has one arm, which answers OK in every state (R69). -/
@[simp] theorem exec_gensbox (s : State) :
    exec .gensbox s = .next (s.genSboxTables.setSv.answered .ok 0x00#8) := rfl

theorem eq_of_exec_gensbox {s t : State} (h : exec .gensbox s = .next t) :
    t = s.genSboxTables.setSv.answered .ok 0x00#8 := (Host.Outcome.next.inj h).symm

theorem State.sboxGenerated_genSbox (s : State) : (s.genSboxTables.setSv.answered .ok 0x00#8).SboxGenerated :=
  ⟨read_writeSboxTables_sbox s.mem, read_writeSboxTables_invSbox s.mem⟩

/-- Each address of the substitution tables is that of an entry of SBOX, or of the inverse of one. -/
theorem eq_sboxAddr_or_invSboxAddr {a : Nat} (ha : a < 512) :
    (∃ i, a = sboxAddr i) ∨ ∃ i, a = invSboxAddr (sboxEntry i) := by
  by_cases low : a < 256
  · exact .inl ⟨BitVec.ofNatLT a low, rfl⟩
  · obtain ⟨i, hi⟩ := sboxEntry_surjective (BitVec.ofNatLT (a - 256) (by omega))
    refine .inr ⟨i, ?_⟩
    rw [hi, invSboxAddr, BitVec.toNat_ofNatLT]
    omega

section
variable {s : State} (tables : s.SboxGenerated)
include tables

/-- INVSBOX undoes SBOX (R68, R70). -/
theorem State.SboxGenerated.invSbox_of_sbox {i v : Byte} (held : s.memRead (sboxAddr i) = some v) :
    s.memRead (invSboxAddr v) = some i := by
  obtain rfl : sboxEntry i = v := by simpa [tables.sbox] using held
  exact tables.invSbox i

/-- SBOX undoes INVSBOX, which is defined everywhere (R70). -/
theorem State.SboxGenerated.exists_index (j : Byte) :
    ∃ i, s.memRead (invSboxAddr j) = some i ∧ s.memRead (sboxAddr i) = some j := by
  obtain ⟨i, rfl⟩ := sboxEntry_surjective j
  exact ⟨i, tables.invSbox i, tables.sbox i⟩

/-- SBOX takes each value at one index (R70): INVSBOX tells which. -/
theorem State.SboxGenerated.existsUnique_index (v : Byte) : ∃! i : Byte, s.memRead (sboxAddr i) = some v := by
  obtain ⟨i, inverse, held⟩ := tables.exists_index v
  refine ⟨i, held, fun k hk => ?_⟩
  simpa [inverse] using (tables.invSbox_of_sbox hk).symm

/-- The generated values fix every byte of the two tables (R73). -/
theorem State.SboxGenerated.memRead_eq {t : State} (tables' : t.SboxGenerated) {a : Nat} (ha : a < 512) :
    t.memRead a = s.memRead a := by
  obtain ⟨i, rfl⟩ | ⟨i, rfl⟩ := eq_sboxAddr_or_invSboxAddr ha
  · rw [tables.sbox, tables'.sbox]
  · rw [tables.invSbox, tables'.invSbox]

end

/-- GENSBOX where SV is 1 writes what the tables hold (R69, R73). -/
theorem State.Inv.sameSbox_genSbox {s : State} (inv : s.Inv) (flag : s.sv = true) :
    s.sameSbox (s.genSboxTables.setSv.answered .ok 0x00#8) :=
  ⟨flag.symm, fun _ => (inv.sboxGenerated flag).memRead_eq s.sboxGenerated_genSbox⟩

theorem State.Inv.onlyAnswered_genSbox {s : State} (inv : s.Inv) (flag : s.sv = true) :
    s.onlyAnswered (s.genSboxTables.setSv.answered .ok 0x00#8) .ok 0x00#8 :=
  ⟨rfl, inv.sameSbox_genSbox flag, s.sameRcon_genSbox .ok 0x00#8, rfl, rfl⟩

/-- Settles O31: every entry GENSBOX leaves is a generated value, and the rest of the unit is as it was. -/
theorem gensboxWritesBothTables : Obligations.GensboxWritesBothTables := by
  refine ⟨fun s => ?_, by decide, transact_encode .gensbox, fun a b s operand => ?_, fun s t inv flag next => ?_⟩
  · have tables := s.sboxGenerated_genSbox
    refine ⟨_, exec_gensbox s, rfl, tables.sbox 0x00#8, fun i hi => ?_, fun i v => tables.invSbox_of_sbox,
      tables.exists_index, rfl, s.sameRcon_genSbox .ok 0x00#8, ⟨rfl, rfl⟩, ?_⟩
    · rw [tables.sbox, sboxEntry_ne_zero_index hi]
    · exact ⟨_, exec_sbox_of_held rfl (tables.sbox 0x00#8), State.onlyAnswered_answered _ _ _⟩
  · exact answersStatus_illegalCmd_of_not_fits .n (by decide) (not_and_or.mpr operand) s
  · obtain rfl := eq_of_exec_gensbox next
    exact inv.onlyAnswered_genSbox flag

theorem sboxEntry_one : sboxEntry 0x01#8 = 0x7C#8 := by
  rw [sboxEntry_ne_zero_index (by decide), show gfinv 0x01#8 = 0x01#8 from gfinv_unique (by decide)]
  decide

theorem sboxEntry_hexFF : sboxEntry 0xFF#8 = 0x16#8 := by
  rw [sboxEntry_ne_zero_index (by decide), gfinv_hexFF]
  decide

/-- Settles O32: where SV is 1 the tables hold the generated values, of which no two are equal. -/
theorem sboxIsABijectionWithItsInverse : Obligations.SboxIsABijectionWithItsInverse := by
  intro s inv flag
  have tables := inv.sboxGenerated flag
  have zero : s.memRead (sboxAddr 0x00#8) = some 0x63#8 := tables.sbox 0x00#8
  have one : s.memRead (sboxAddr 0x01#8) = some 0x7C#8 := sboxEntry_one ▸ tables.sbox 0x01#8
  have last : s.memRead (sboxAddr 0xFF#8) = some 0x16#8 := sboxEntry_hexFF ▸ tables.sbox 0xFF#8
  exact ⟨fun i => ⟨_, tables.sbox i, tables.invSbox i⟩, tables.exists_index, tables.existsUnique_index, zero, one, last,
    tables.invSbox_of_sbox zero, tables.invSbox_of_sbox one, tables.invSbox_of_sbox last⟩

end Sys2Proof.Machine
end

section
/-! Generation of the Rcon table (R71, R72), and what repeating either generation changes (R73): nothing. -/

namespace Sys2Proof.Machine

/-- RCON holds the values generated from the unit's seed (R71), whatever RV is. -/
def State.RconGenerated (s : State) : Prop :=
  ∀ i < rconSize, s.memRead (rconAddr i) = some (rconEntry s.config.rconSeed i)

/-- GENRCON has one arm, which answers OK in every state (R72). -/
@[simp] theorem exec_genrcon (s : State) :
    exec .genrcon s = .next (s.genRconTable.setRv.answered .ok 0x00#8) := rfl

theorem eq_of_exec_genrcon {s t : State} (h : exec .genrcon s = .next t) :
    t = s.genRconTable.setRv.answered .ok 0x00#8 := (Host.Outcome.next.inj h).symm

theorem State.rconGenerated_genRcon (s : State) : (s.genRconTable.setRv.answered .ok 0x00#8).RconGenerated :=
  fun _ => read_writeRconTable_rcon s.config.rconSeed s.mem

/-- The seed fixes every byte of the Rcon table (R73). -/
theorem State.RconGenerated.memRead_eq {s t : State} (table : s.RconGenerated) (table' : t.RconGenerated)
    (config : s.config = t.config) {i : Nat} (hi : i < rconSize) : t.memRead (rconAddr i) = s.memRead (rconAddr i) := by
  rw [table i hi, table' i hi, config]

/-- GENRCON where RV is 1 writes what the table holds (R72, R73). -/
theorem State.Inv.sameRcon_genRcon {s : State} (inv : s.Inv) (flag : s.rv = true) :
    s.sameRcon (s.genRconTable.setRv.answered .ok 0x00#8) := by
  refine ⟨flag.symm, fun a ha => ?_⟩
  by_cases beyond : flatSize ≤ a
  · exact read_writeRconTable_elsewhere s.config.rconSeed s.mem (.inr beyond)
  · obtain ⟨i, rfl⟩ := Nat.exists_eq_add_of_le ha
    have hi : i < rconSize := by
      unfold flatSize rconSize at *
      omega
    exact State.RconGenerated.memRead_eq (inv.rconHeld flag) s.rconGenerated_genRcon rfl hi

theorem State.Inv.onlyAnswered_genRcon {s : State} (inv : s.Inv) (flag : s.rv = true) :
    s.onlyAnswered (s.genRconTable.setRv.answered .ok 0x00#8) .ok 0x00#8 :=
  ⟨rfl, s.sameSbox_genRcon .ok 0x00#8, inv.sameRcon_genRcon flag, rfl, rfl⟩

/-- Doubling a byte n times multiplies it by x^n (R71). -/
theorem applyTimes_xtime_eq_gfmul (a : Byte) (n : Nat) :
    applyTimes xtime n a = gfmul a (applyTimes (gfmul 0x02#8) n 0x01#8) := by
  induction n with
  | zero => exact (gfmul_one_right a).symm
  | succ n ih => rw [applyTimes, applyTimes, ih, gfmul_comm 0x02#8, gfmul_two, gfmul_xtime]

/-- Settles O35: the entries GENRCON leaves are the generated values, each the double of the one before, and the rest of the
unit is as it was. -/
theorem genrconWritesTheDoublings : Obligations.GenrconWritesTheDoublings := by
  refine ⟨fun s => ?_, by decide, transact_encode .genrcon, fun a b s operand => ?_, fun s t u seed next lookup => ?_⟩
  · have table := s.rconGenerated_genRcon
    refine ⟨_, exec_genrcon s, rfl, table 0 (by decide), fun i hi => ?_, fun i hi => ⟨?_, ?_⟩, rfl,
      s.sameSbox_genRcon .ok 0x00#8, fun a ha => ?_, ⟨rfl, rfl⟩⟩
    · exact ⟨_, table i (hi.trans (by decide)), table (i + 1) (Nat.succ_lt_succ hi)⟩
    · rw [← rconEntry_eq_applyTimes]
      exact table i hi
    · exact applyTimes_xtime_eq_gfmul _ i
    · exact read_writeRconTable_elsewhere s.config.rconSeed s.mem (.inr ha)
  · exact answersStatus_illegalCmd_of_not_fits .n (by decide) (not_and_or.mpr operand) s
  · obtain rfl := eq_of_exec_genrcon next
    have entry : rconEntry s.config.rconSeed 8 = 0x1B#8 := by
      rw [seed]
      decide
    have held := s.rconGenerated_genRcon 8 (by decide)
    rw [exec_rcon_of_held (i := 8#8) (by decide) rfl (held.trans (congrArg some entry))] at lookup
    obtain rfl := Host.Outcome.next.inj lookup
    exact State.onlyAnswered_answered _ _ _

section
variable {w : CommandWord} {s t : State} (inv : s.Inv) (h : transact w s = .next t)
include inv h

/-- A transaction keeps the substitution tables of a unit whose SV is 1 (R73). -/
theorem transact_keeps_sbox (flag : s.sv = true) : s.sameSbox t := by
  obtain ⟨st, d, rfl⟩ | ⟨-, rfl⟩ | ⟨-, rfl⟩ := transact_next h
  · exact s.sameSbox_answered st d
  · exact inv.sameSbox_genSbox flag
  · exact s.sameSbox_genRcon .ok 0x00#8

/-- A transaction keeps the Rcon table of a unit whose RV is 1 (R73). -/
theorem transact_keeps_rcon (flag : s.rv = true) : s.sameRcon t := by
  obtain ⟨st, d, rfl⟩ | ⟨-, rfl⟩ | ⟨-, rfl⟩ := transact_next h
  · exact s.sameRcon_answered st d
  · exact s.sameRcon_genSbox .ok 0x00#8
  · exact inv.sameRcon_genRcon flag

end

/-- Settles O36: the generated values depend on the seed at most, and a table whose flag is 1 holds them already. -/
theorem generationIsDeterministic : Obligations.GenerationIsDeterministic := by
  refine ⟨fun s s' t t' next next' a ha => ?_, fun s s' t t' config next next' i hi => ?_,
    fun s inv flag => ⟨_, exec_gensbox s, inv.onlyAnswered_genSbox flag⟩,
    fun s inv flag => ⟨_, exec_genrcon s, inv.onlyAnswered_genRcon flag⟩,
    fun w s t inv next => ⟨transact_keeps_sbox inv next, transact_keeps_rcon inv next⟩⟩
  · obtain rfl := eq_of_exec_gensbox next
    obtain rfl := eq_of_exec_gensbox next'
    exact s'.sboxGenerated_genSbox.memRead_eq s.sboxGenerated_genSbox ha
  · obtain rfl := eq_of_exec_genrcon next
    obtain rfl := eq_of_exec_genrcon next'
    exact s'.rconGenerated_genRcon.memRead_eq s.rconGenerated_genRcon config.symm hi

end Sys2Proof.Machine
end

section
/-! Lookup (R74, R75, R76): what each of the three commands answers, by its flag and its index. -/

namespace Sys2Proof.Machine

section
variable {s : State} {i : Byte}

theorem exec_sbox_of_not_ready (flag : s.sv = false) :
    exec (.sbox i) s = .next (s.answered .tableNotReady 0x00#8) := by
  simp [exec, execSbox, flag]

theorem exec_isbox_of_not_ready (flag : s.sv = false) :
    exec (.isbox i) s = .next (s.answered .tableNotReady 0x00#8) := by
  simp [exec, execIsbox, flag]

theorem exec_rcon_of_not_ready (legal : i.toNat ≤ 9) (flag : s.rv = false) :
    exec (.rcon i) s = .next (s.answered .tableNotReady 0x00#8) := by
  simp [exec, execRcon, rconIndexLegal, legal, flag]

/-- The index is checked before the flag (R95). -/
theorem exec_rcon_of_out_of_range (index : 10 ≤ i.toNat) :
    exec (.rcon i) s = .next (s.answered .indexRange 0x00#8) := by
  have illegal : ¬ i.toNat ≤ 9 := by omega
  simp [exec, execRcon, rconIndexLegal, illegal]

end

section
variable {s : State} (inv : s.Inv) {i v : Byte}
include inv

/-- SBOX answers the generated entry (R74). -/
theorem State.Inv.exec_sbox (flag : s.sv = true) (entry : sboxEntry i = v) :
    exec (.sbox i) s = .next (s.answered .ok v) :=
  exec_sbox_of_held flag (entry ▸ inv.sboxHeld flag i)

/-- ISBOX answers the index of the generated entry (R75). -/
theorem State.Inv.exec_isbox (flag : s.sv = true) (entry : sboxEntry i = v) :
    exec (.isbox v) s = .next (s.answered .ok i) :=
  exec_isbox_of_held flag (entry ▸ inv.invSboxHeld flag i)

/-- RCON answers the generated entry (R76). -/
theorem State.Inv.exec_rcon (flag : s.rv = true) (legal : i.toNat ≤ 9)
    (entry : rconEntry s.config.rconSeed i.toNat = v) : exec (.rcon i) s = .next (s.answered .ok v) :=
  exec_rcon_of_held legal flag (entry ▸ inv.rconHeld flag _ (Nat.lt_succ_of_le legal))

/-- RCON of an index written as a number. -/
theorem State.Inv.exec_rcon_ofNat (flag : s.rv = true) {n : Nat} (hn : n < rconSize) :
    exec (.rcon (BitVec.ofNat 8 n)) s = .next (s.answered .ok (rconEntry s.config.rconSeed n)) := by
  have index : (BitVec.ofNat 8 n).toNat = n := Nat.mod_eq_of_lt (hn.trans (by decide))
  exact inv.exec_rcon flag (index.trans_le (Nat.le_of_lt_succ hn)) (congrArg _ index)

end

/-- A command has one response. -/
theorem data_of_completesWith {i : Instr} {s : State} {st : Status} {d d' : Byte}
    (h : exec i s = .next (s.answered st d)) (completes : completesWith i s st d') : d' = d := by
  obtain ⟨t, next, response, -⟩ := completes
  obtain rfl : s.answered st d = t := Host.Outcome.next.inj (h.symm.trans next)
  simpa using response.symm

/-- An entry may be computed from any inverse of its index, without the search (R59, R68). -/
theorem sboxEntry_of_inverse {i x : Byte} (inverse : gfmul i x = 0x01#8) : sboxEntry i = affine x := by
  have nonzero : i ≠ 0x00#8 := by
    rintro rfl
    exact absurd (gfmul_zero_left x ▸ inverse) (by decide)
  rw [sboxEntry_ne_zero_index nonzero, gfinv_unique inverse]

theorem sboxEntry_hex52 : sboxEntry 0x52#8 = 0x00#8 :=
  (sboxEntry_of_inverse (x := 0x05#8) (by decide)).trans (by decide)

theorem sboxEntry_hex53 : sboxEntry 0x53#8 = 0xED#8 :=
  (sboxEntry_of_inverse (x := 0xCA#8) (by decide)).trans (by decide)

set_option maxRecDepth 8000 in
/-- The affine transform takes no byte to its inverse: checked byte by byte, the inverse being known by its product. -/
theorem gfmul_affine_ne_one : ∀ x : Byte, gfmul (affine x) x ≠ 0x01#8 := by decide

/-- The S-box has no fixed point (R70): a fixed index would be the affine transform of its own inverse. -/
theorem sboxEntry_ne_self (i : Byte) : sboxEntry i ≠ i := by
  intro fixed
  by_cases zero : i = 0x00#8
  · subst zero
    exact absurd fixed (by decide)
  · have affine_inverse : affine (gfinv i) = i := (sboxEntry_ne_zero_index zero).symm.trans fixed
    apply gfmul_affine_ne_one (gfinv i)
    rw [affine_inverse, gfmul_gfinv zero]

/-- Settles O38: SBOX has one arm for each value of SV and format U; with the invariant the entry is the generated one. -/
theorem sboxAnswersTheEntry : Obligations.SboxAnswersTheEntry := by
  refine ⟨fun s i flag => completesWith_of_exec (exec_sbox_of_not_ready flag),
    fun s i v flag held => completesWith_of_exec (exec_sbox_of_held flag held), fun s i inv flag nonzero => ?_,
    fun s inv flag => ⟨?_, ?_, ?_, ?_⟩, fun s i v inv flag completes => ?_, fun s i => transact_encode (.sbox i) s,
    fun s i b hb => answersStatus_illegalCmd_of_not_fits .u (by decide) hb s, by decide, by decide, by decide⟩
  · exact completesWith_of_exec (inv.exec_sbox flag (sboxEntry_ne_zero_index nonzero))
  · exact completesWith_of_exec (inv.exec_sbox flag rfl)
  · exact completesWith_of_exec (inv.exec_sbox flag sboxEntry_one)
  · exact completesWith_of_exec (inv.exec_sbox flag sboxEntry_hexFF)
  · exact completesWith_of_exec (inv.exec_sbox flag sboxEntry_hex53)
  · rw [data_of_completesWith (inv.exec_sbox flag rfl) completes]
    exact sboxEntry_ne_self i

/-- Settles O39: ISBOX has one arm for each value of SV and format U; the S-box taking every value, each index is that of an
entry. -/
theorem isboxAnswersTheInverseEntry : Obligations.IsboxAnswersTheInverseEntry := by
  refine ⟨fun s i flag => completesWith_of_exec (exec_isbox_of_not_ready flag),
    fun s i v flag held => completesWith_of_exec (exec_isbox_of_held flag held), fun s inv flag j => ?_,
    fun s inv flag => ⟨?_, ?_, ?_, ?_, ?_⟩, fun s i => transact_encode (.isbox i) s,
    fun s i b hb => answersStatus_illegalCmd_of_not_fits .u (by decide) hb s, by decide, by decide⟩
  · obtain ⟨i, entry⟩ := sboxEntry_surjective j
    exact ⟨i, entry, completesWith_of_exec (inv.exec_isbox flag entry)⟩
  · exact completesWith_of_exec (inv.exec_isbox flag rfl)
  · exact completesWith_of_exec (inv.exec_isbox flag sboxEntry_one)
  · exact completesWith_of_exec (inv.exec_isbox flag sboxEntry_hexFF)
  · exact completesWith_of_exec (inv.exec_isbox flag sboxEntry_hex52)
  · exact completesWith_of_exec (inv.exec_isbox flag sboxEntry_hex53)

/-- Settles O40: RCON has one arm for an index out of range, one for each value of RV, and format U; with the invariant the entry
is the generated one. -/
theorem rconAnswersTheEntry : Obligations.RconAnswersTheEntry := by
  refine ⟨fun s i index => completesWith_of_exec (exec_rcon_of_out_of_range index),
    fun s i legal flag => completesWith_of_exec (exec_rcon_of_not_ready legal flag),
    fun s i v legal flag held => completesWith_of_exec (exec_rcon_of_held legal flag held),
    fun s i inv flag legal => ?_, fun s inv flag => ?_, fun s inv flag seed => ⟨?_, ?_⟩,
    fun s i => transact_encode (.rcon i) s,
    fun s i b hb => answersStatus_illegalCmd_of_not_fits .u (by decide) hb s,
    by decide, by decide, by decide, by decide⟩
  · exact completesWith_of_exec (inv.exec_rcon flag legal (rconEntry_eq_applyTimes _ _))
  · exact completesWith_of_exec (inv.exec_rcon flag (by decide) rfl)
  · exact completesWith_of_exec (inv.exec_rcon flag (by decide) seed)
  · have entry : rconEntry s.config.rconSeed 9 = 0x36#8 := by
      rw [seed]
      decide
    exact completesWith_of_exec (inv.exec_rcon flag (by decide) entry)

end Sys2Proof.Machine
end

section
/-! Lookups one after another (R77): runs of commands that each answer and change nothing else. -/

namespace Sys2Proof.Machine

theorem runsTo_nil (s : State) : runsTo [] s s [] := ⟨rfl, (List.append_nil _).symm, rfl⟩

/-- A run begins with the response of its first command. -/
theorem runsTo_cons {i : Instr} {ws : List CommandWord} {s t : State} {st : Status} {d : Byte} {rs : List Response}
    (h : exec i s = .next (s.answered st d)) (rest : runsTo ws (s.answered st d) t rs) :
    runsTo (encode i :: ws) s t (⟨st, d⟩ :: rs) := by
  obtain ⟨runs, responses, length⟩ := rest
  refine ⟨?_, ?_, congrArg (· + 1) length⟩
  · rw [transactAll, transact_encode, h]
    exact runs
  · rw [responses, State.answered_responses, List.append_assoc, List.singleton_append]

/-- A run of two commands. -/
theorem runsTo_pair {i j : Instr} {s : State} {st st' : Status} {d d' : Byte}
    (first : exec i s = .next (s.answered st d))
    (second : exec j (s.answered st d) = .next ((s.answered st d).answered st' d')) :
    runsTo [encode i, encode j] s ((s.answered st d).answered st' d') [⟨st, d⟩, ⟨st', d'⟩] :=
  runsTo_cons first (runsTo_cons second (runsTo_nil _))

/-- The recurrence of the Rcon table (R71, R77): XTIME of an entry answers what RCON answers at the next index. -/
theorem State.Inv.runsTo_rcon_xtime_rcon {s : State} (inv : s.Inv) (flag : s.rv = true) {i : Nat} (hi : i < 9) :
    ∃ v v' t, runsTo [encode (.rcon (BitVec.ofNat 8 i)), encode (.xtime v), encode (.rcon (BitVec.ofNat 8 (i + 1)))] s t
      [⟨.ok, v⟩, ⟨.ok, v'⟩, ⟨.ok, v'⟩] :=
  ⟨_, _, _, runsTo_cons (inv.exec_rcon_ofNat flag (hi.trans (by decide))) (runsTo_pair (exec_xtime _ _)
    (((inv.answered _ _).answered _ _).exec_rcon_ofNat flag (Nat.succ_lt_succ hi)))⟩

/-- Settles O41: each lookup keeps the invariant, so the next one finds the generated entries again. -/
theorem lookupsAgreeWithEachOther : Obligations.LookupsAgreeWithEachOther := by
  refine ⟨fun s inv flag i => ?_, fun s inv flag => ?_, fun s inv flag i hi => inv.runsTo_rcon_xtime_rcon flag hi,
    fun s inv => ⟨fun flag i => ⟨?_, ?_⟩, fun flag i legal => ?_⟩⟩
  · obtain ⟨k, entry⟩ := sboxEntry_surjective i
    exact ⟨_, _, _, runsTo_pair (inv.exec_sbox flag rfl) ((inv.answered _ _).exec_isbox flag rfl),
      k, runsTo_pair (inv.exec_isbox flag entry) ((inv.answered _ _).exec_sbox flag entry)⟩
  · exact ⟨_, runsTo_cons (inv.exec_sbox flag rfl) (runsTo_pair ((inv.answered _ _).exec_sbox flag sboxEntry_one)
      (((inv.answered _ _).answered _ _).exec_sbox flag sboxEntry_hexFF))⟩
  · exact ⟨_, _, runsTo_pair (inv.exec_sbox flag rfl) ((inv.answered _ _).exec_sbox flag rfl)⟩
  · obtain ⟨k, entry⟩ := sboxEntry_surjective i
    exact ⟨_, _, runsTo_pair (inv.exec_isbox flag entry) ((inv.answered _ _).exec_isbox flag entry)⟩
  · exact ⟨_, _, runsTo_pair (inv.exec_rcon flag legal rfl) ((inv.answered _ _).exec_rcon flag legal rfl)⟩

end Sys2Proof.Machine
end

section
/-! The table codec (R80, R82): decode finds the tables whose blob begins its input. -/

namespace Sys2Proof.Machine

section
variable (T : Tables)

@[simp] theorem Tables.encode_length : T.encode.length = 522 := by simp [Tables.encode]

theorem Tables.encode_sbox (i : Fin 256) : T.encode[i.val]? = some T.sbox[i] := by
  rw [Tables.encode, List.append_assoc, List.getElem?_append_left (by simp)]
  simp

theorem Tables.encode_inverseSbox (i : Fin 256) : T.encode[256 + i.val]? = some T.inverseSbox[i] := by
  rw [Tables.encode, List.append_assoc, List.getElem?_append_right (by simp), List.getElem?_append_left (by simp)]
  simp

theorem Tables.encode_rcon (i : Fin 10) : T.encode[512 + i.val]? = some T.rcon[i] := by
  rw [Tables.encode, List.getElem?_append_right (by simp)]
  simp

end

/-- Each address of the flat table space is that of an entry of one of the three tables (R28). -/
theorem flat_address_cases {k : Nat} (hk : k < 522) :
    (∃ i : Fin 256, k = i.val) ∨ (∃ i : Fin 256, k = 256 + i.val) ∨ ∃ i : Fin 10, k = 512 + i.val := by
  by_cases sbox : k < 256
  · exact .inl ⟨⟨k, sbox⟩, rfl⟩
  by_cases inverseSbox : k < 512
  · exact .inr (.inl ⟨⟨k - 256, by omega⟩, (Nat.add_sub_of_le (by omega)).symm⟩)
  · exact .inr (.inr ⟨⟨k - 512, by omega⟩, (Nat.add_sub_of_le (by omega)).symm⟩)

/-- The blob of the unit's own tables is the flat table space, byte by byte (R80). -/
theorem State.holdsTables.encode_eq_memRead {s : State} {T : Tables} (held : s.holdsTables T) {k : Nat} (hk : k < 522) :
    T.encode[k]? = s.memRead k := by
  obtain ⟨sbox, inverseSbox, rcon⟩ := held
  obtain ⟨i, rfl⟩ | ⟨i, rfl⟩ | ⟨i, rfl⟩ := flat_address_cases hk
  · rw [T.encode_sbox, sbox]
  · rw [T.encode_inverseSbox, inverseSbox]
  · rw [T.encode_rcon, rcon]

/-- Settles O45: each entry has its place in the blob, and the unit's entries have the same places in the flat table space. -/
theorem blobLaysOutTheThreeTables : Obligations.BlobLaysOutTheThreeTables :=
  ⟨fun T => ⟨T.encode_length, T.encode_sbox, T.encode_inverseSbox, T.encode_rcon⟩,
    fun _ _ held _ hk => held.encode_eq_memRead hk⟩

theorem Tables.eq_iff {T U : Tables} :
    T = U ↔ T.sbox = U.sbox ∧ T.inverseSbox = U.inverseSbox ∧ T.rcon = U.rcon := by
  cases T
  cases U
  simp

theorem Tables.encode_injective {T U : Tables} (same : T.encode = U.encode) : T = U := by
  obtain ⟨substitution, rcon⟩ := List.append_inj same (by simp)
  obtain ⟨sbox, inverseSbox⟩ := List.append_inj substitution (by simp)
  exact Tables.eq_iff.mpr ⟨Vector.toList_inj.mp sbox, Vector.toList_inj.mp inverseSbox, Vector.toList_inj.mp rcon⟩

theorem sliceOf_toList (blob : List Byte) (off n : Nat) (h : off + n ≤ blob.length) :
    (sliceOf blob off n h).toList = (blob.drop off).take n := by
  apply List.ext_getElem
  · rw [Vector.length_toList, List.length_take, List.length_drop]
    omega
  · intro i _ _
    simp [sliceOf]

theorem decodeBlob_of_short {blob : List Byte} (short : blob.length < 522) :
    decodeBlob blob = .error .truncatedInput := dif_pos short

theorem decodeBlob_slices {blob : List Byte} (full : 522 ≤ blob.length) :
    ∃ T, decodeBlob blob = .tables T ∧ T.sbox.toList = blob.take 256 ∧
      T.inverseSbox.toList = (blob.drop 256).take 256 ∧ T.rcon.toList = (blob.drop 512).take 10 :=
  ⟨_, dif_neg (by omega), sliceOf_toList blob 0 256 (by omega), sliceOf_toList blob 256 256 (by omega),
    sliceOf_toList blob 512 10 (by omega)⟩

/-- What decode answers encodes to the beginning of its input. -/
theorem decodeBlob_encode_prefix {blob : List Byte} (full : 522 ≤ blob.length) :
    ∃ T, decodeBlob blob = .tables T ∧ T.encode <+: blob := by
  obtain ⟨T, decoded, sbox, inverseSbox, rcon⟩ := decodeBlob_slices full
  refine ⟨T, decoded, ?_⟩
  have whole : T.encode = blob.take (256 + 256 + 10) := by
    rw [Tables.encode, sbox, inverseSbox, rcon, List.take_add, List.take_add]
  exact whole ▸ List.take_prefix _ _

/-- Decode inverts encode, whatever follows the 522 bytes (R82). -/
theorem decodeBlob_eq_tables {blob : List Byte} {T : Tables} (begins : T.encode <+: blob) :
    decodeBlob blob = .tables T := by
  obtain ⟨U, decoded, begins'⟩ := decodeBlob_encode_prefix (T.encode_length ▸ begins.length_le)
  have same : U.encode = T.encode := (List.prefix_of_prefix_length_le begins' begins (by simp)).eq_of_length (by simp)
  rw [decoded, Tables.encode_injective same]

theorem decodeBlob_encode (T : Tables) : decodeBlob T.encode = .tables T :=
  decodeBlob_eq_tables (List.prefix_refl _)

/-- Settles O46: a blob of 522 bytes or more begins with the blob of one triple of tables, which decode finds. -/
theorem decodeBlobSlicesOrReportsTruncation : Obligations.DecodeBlobSlicesOrReportsTruncation := by
  refine ⟨fun _ => decodeBlob_of_short, fun _ => decodeBlob_slices, fun blob more full => ?_, decodeBlob_encode⟩
  obtain ⟨T, decoded, begins⟩ := decodeBlob_encode_prefix full
  rw [decoded, decodeBlob_eq_tables (begins.trans (List.prefix_append blob more))]

end Sys2Proof.Machine
end

section
/-! The verifier (R84, R85): a search over the indices finds the least one that fails. -/

namespace Sys2Proof.Machine

/-! ### The bijection check -/

section
variable (f g : Vector Byte 256)

theorem bijectionViolationAt_eq (i : Fin 256) :
    bijectionViolationAt f g i = if g[f[i].toNat]'(f[i].isLt) = BitVec.ofNat 8 i.val then none
      else some ⟨i.val, f[i], g[f[i].toNat]'(f[i].isLt)⟩ := by
  have back_is_index (b : Byte) : b.toNat = i.val ↔ b = BitVec.ofNat 8 i.val := by
    rw [← BitVec.toNat_inj, BitVec.toNat_ofNat, Nat.mod_eq_of_lt i.isLt]
  simp [bijectionViolationAt, back_is_index]

theorem bijectionViolationAt_eq_none_iff (i : Fin 256) :
    bijectionViolationAt f g i = none ↔ g[f[i].toNat]'(f[i].isLt) = BitVec.ofNat 8 i.val := by
  simp [bijectionViolationAt_eq]

/-- A violation reports the index and the two values of R84. -/
theorem bijectionViolationAt_eq_some_iff (i : Fin 256) (r : BijectionReport) :
    bijectionViolationAt f g i = some r ↔ r.index = i.val ∧ r.image = f[i] ∧ r.back = g[f[i].toNat]'(f[i].isLt) ∧
      r.back ≠ BitVec.ofNat 8 i.val := by
  rw [bijectionViolationAt_eq, Option.ite_none_left_eq_some, Option.some_inj]
  constructor
  · rintro ⟨violated, rfl⟩
    exact ⟨rfl, rfl, rfl, violated⟩
  · obtain ⟨index, image, back⟩ := r
    rintro ⟨rfl, rfl, rfl, violated⟩
    exact ⟨violated, rfl⟩

theorem firstBijectionViolation_eq_findSome? :
    firstBijectionViolation f g = Fin.findSome? (bijectionViolationAt f g) :=
  (Fin.findSome?_eq_findSome?_finRange _).symm

theorem checkBijection_iff :
    checkBijection f g = true ↔ ∀ i : Fin 256, g[f[i].toNat]'(f[i].isLt) = BitVec.ofNat 8 i.val := by
  simp only [checkBijection, firstBijectionViolation_eq_findSome?, Option.isNone_iff_eq_none, Fin.findSome?_eq_none_iff,
    bijectionViolationAt_eq_none_iff]

theorem firstBijectionViolation_eq_some_iff (r : BijectionReport) :
    firstBijectionViolation f g = some r ↔ ∃ i : Fin 256, r.index = i.val ∧ r.image = f[i] ∧
      r.back = g[f[i].toNat]'(f[i].isLt) ∧ r.back ≠ BitVec.ofNat 8 i.val ∧
      ∀ j < i, g[f[j].toNat]'(f[j].isLt) = BitVec.ofNat 8 j.val := by
  simp only [firstBijectionViolation_eq_findSome?, Fin.findSome?_eq_some_iff, bijectionViolationAt_eq_some_iff,
    bijectionViolationAt_eq_none_iff, and_assoc]

end

/-- Tables that a unit generated pass the check: INVSBOX undoes SBOX (R70). -/
theorem State.SboxGenerated.passes_checkBijection {s : State} (tables : s.SboxGenerated) {T : Tables}
    (held : s.holdsTables T) : checkBijection T.sbox T.inverseSbox = true := by
  obtain ⟨sbox, inverseSbox, -⟩ := held
  refine (checkBijection_iff _ _).mpr fun i => Option.some.inj ?_
  have entry : s.memRead (sboxAddr (BitVec.ofNat 8 i.val)) = some T.sbox[i] := by
    rw [sboxAddr, BitVec.toNat_ofNat, Nat.mod_eq_of_lt i.isLt, sbox]
  calc
    some (T.inverseSbox[T.sbox[i].toNat]'(T.sbox[i].isLt)) = s.memRead (invSboxAddr T.sbox[i]) :=
      (inverseSbox T.sbox[i].toFin).symm
    _ = some (BitVec.ofNat 8 i.val) := tables.invSbox_of_sbox entry

/-- Settles O47: the search meets the violations in ascending order, and generated tables have none. -/
theorem checkBijectionFindsTheFirstViolation : Obligations.CheckBijectionFindsTheFirstViolation :=
  ⟨checkBijection_iff, firstBijectionViolation_eq_some_iff,
    fun _ _ inv flag held => (inv.sboxGenerated flag).passes_checkBijection held⟩

/-! ### The round-trip check -/

section
variable {n : Nat} (name : TableName) (f g : Vector Byte n)

theorem mismatchAt_eq_none_iff (i : Fin n) : mismatchAt name f g i = none ↔ f[i] = g[i] := by
  simp [mismatchAt]

theorem mismatchAt_eq_some_iff (i : Fin n) (r : MismatchReport) :
    mismatchAt name f g i = some r ↔ r = ⟨name, i.val, f[i], g[i]⟩ ∧ f[i] ≠ g[i] := by
  rw [mismatchAt, Option.ite_none_left_eq_some, Option.some_inj, eq_comm (a := r), and_comm]

theorem firstMismatchIn_eq_findSome? : firstMismatchIn name f g = Fin.findSome? (mismatchAt name f g) :=
  (Fin.findSome?_eq_findSome?_finRange _).symm

theorem firstMismatchIn_eq_none_iff : firstMismatchIn name f g = none ↔ f = g := by
  rw [firstMismatchIn_eq_findSome?, Fin.findSome?_eq_none_iff]
  simp only [mismatchAt_eq_none_iff]
  exact ⟨fun same => Vector.ext fun i hi => same ⟨i, hi⟩, fun same i => by rw [same]⟩

theorem firstMismatchIn_eq_some_iff (r : MismatchReport) :
    firstMismatchIn name f g = some r ↔
      ∃ i : Fin n, r = ⟨name, i.val, f[i], g[i]⟩ ∧ f[i] ≠ g[i] ∧ ∀ j < i, f[j] = g[j] := by
  simp only [firstMismatchIn_eq_findSome?, Fin.findSome?_eq_some_iff, mismatchAt_eq_some_iff, mismatchAt_eq_none_iff,
    and_assoc]

end

theorem checkRoundTrip_iff (T U : Tables) : checkRoundTrip T U = true ↔ T = U := by
  simp only [checkRoundTrip, firstMismatch, Option.isNone_iff_eq_none, Option.or_eq_none_iff, firstMismatchIn_eq_none_iff,
    Tables.eq_iff]

/-- The tables are searched in order: a mismatch is reported of a table only where those before it are equal (R85). -/
theorem firstMismatch_eq_some_iff (T U : Tables) (r : MismatchReport) :
    firstMismatch T U = some r ↔ firstMismatchIn .sbox T.sbox U.sbox = some r ∨
      T.sbox = U.sbox ∧ firstMismatchIn .inverseSbox T.inverseSbox U.inverseSbox = some r ∨
      T.sbox = U.sbox ∧ T.inverseSbox = U.inverseSbox ∧ firstMismatchIn .rcon T.rcon U.rcon = some r := by
  simp only [firstMismatch, Option.or_eq_some_iff, firstMismatchIn_eq_none_iff, and_or_left]

theorem checkRoundTrip_of_decodeBlob_encode {T U : Tables} (decoded : decodeBlob T.encode = .tables U) :
    checkRoundTrip T U = true :=
  (checkRoundTrip_iff T U).mpr (DecodeResult.tables.inj ((decodeBlob_encode T).symm.trans decoded))

/-- Settles O49: each table is searched in ascending order, and decode gives back the tables encoded. -/
theorem checkRoundTripFindsTheFirstMismatch : Obligations.CheckRoundTripFindsTheFirstMismatch := by
  refine ⟨checkRoundTrip_iff, fun T U r => ?_, fun _ _ => checkRoundTrip_of_decodeBlob_encode⟩
  simp only [firstMismatch_eq_some_iff, firstMismatchIn_eq_some_iff]

end Sys2Proof.Machine
end

section
/-! The checks of a command (R91 to R95): which one fails, in what order they are made, and the status of the response. -/

namespace Sys2Proof.Machine

/-- `Raises s dec st`: in the state s the first check to fail, of those on what a word decodes to, raises st (R91 to R94). -/
inductive Raises (s : State) : Decoded → Status → Prop where
  | illegal (why : IllegalWord) : Raises s (.illegal why) .illegalCmd
  | noInverse : Raises s (.command (.gfinv 0x00#8)) .noInverse
  | indexRange {k : Byte} (index : 10 ≤ k.toNat) : Raises s (.command (.rcon k)) .indexRange
  | sboxNotReady (k : Byte) (flag : s.sv = false) : Raises s (.command (.sbox k)) .tableNotReady
  | isboxNotReady (k : Byte) (flag : s.sv = false) : Raises s (.command (.isbox k)) .tableNotReady
  | rconNotReady {k : Byte} (legal : k.toNat ≤ 9) (flag : s.rv = false) : Raises s (.command (.rcon k)) .tableNotReady

/-- The status of what a word decodes to: decoding is checked first, then the operand, then the state (R95). -/
def statusOf (s : State) : Decoded → Status
  | .illegal _ => .illegalCmd
  | .command (.gfinv a) => if a = 0x00#8 then .noInverse else .ok
  | .command (.rcon i) => if 10 ≤ i.toNat then .indexRange else if s.rv then .ok else .tableNotReady
  | .command (.sbox _) => if s.sv then .ok else .tableNotReady
  | .command (.isbox _) => if s.sv then .ok else .tableNotReady
  | .command _ => .ok

section
variable {s : State} {dec : Decoded} {st : Status} {w : CommandWord}

theorem Raises.statusOf_eq (raised : Raises s dec st) : statusOf s dec = st := by
  cases raised with
  | illegal why => rfl
  | noInverse => rfl
  | indexRange index => exact if_pos index
  | sboxNotReady k flag => simp [statusOf, flag]
  | isboxNotReady k flag => simp [statusOf, flag]
  | rconNotReady legal flag => simp [statusOf, flag, Nat.lt_succ_of_le legal]

/-- A status other than OK is raised by a check. -/
theorem exists_raises_of_statusOf (error : statusOf s dec ≠ .ok) : ∃ st, Raises s dec st := by
  cases dec with
  | illegal why => exact ⟨_, .illegal why⟩
  | command i =>
    cases i with
    | gfinv a =>
      by_cases zero : a = 0x00#8
      · subst zero
        exact ⟨_, .noInverse⟩
      · exact absurd (if_neg zero) error
    | sbox k =>
      cases flag : s.sv with
      | true => exact absurd (if_pos flag) error
      | false => exact ⟨_, .sboxNotReady k flag⟩
    | isbox k =>
      cases flag : s.sv with
      | true => exact absurd (if_pos flag) error
      | false => exact ⟨_, .isboxNotReady k flag⟩
    | rcon k =>
      by_cases index : 10 ≤ k.toNat
      · exact ⟨_, .indexRange index⟩
      · cases flag : s.rv with
        | true => exact absurd ((if_neg index).trans (if_pos flag)) error
        | false => exact ⟨_, .rconNotReady (by omega) flag⟩
    | _ => exact absurd rfl error

/-- An error response is that of a check. -/
theorem Answers.exists_raises {r : Response} (answer : Answers s dec r) (error : r.st ≠ .ok) : ∃ st, Raises s dec st := by
  cases answer with
  | completed i => exact absurd rfl error
  | illegalCmd why => exact ⟨_, .illegal why⟩
  | noInverse => exact ⟨_, .noInverse⟩
  | indexRange index => exact ⟨_, .indexRange (Nat.succ_le_of_lt (by simpa [rconIndexLegal] using index))⟩
  | sboxNotReady k flag => exact ⟨_, .sboxNotReady k flag⟩
  | isboxNotReady k flag => exact ⟨_, .isboxNotReady k flag⟩
  | rconNotReady k flag =>
    by_cases legal : k.toNat ≤ 9
    · exact ⟨_, .rconNotReady legal flag⟩
    · exact ⟨_, .indexRange (by omega)⟩

theorem exec_of_raises {i : Instr} (raised : Raises s (.command i) st) : exec i s = .next (s.answered st 0x00#8) := by
  cases raised with
  | noInverse => exact exec_gfinv_zero s
  | indexRange index => exact exec_rcon_of_out_of_range index
  | sboxNotReady k flag => exact exec_sbox_of_not_ready flag
  | isboxNotReady k flag => exact exec_isbox_of_not_ready flag
  | rconNotReady legal flag => exact exec_rcon_of_not_ready legal flag

/-- The error a check raises is answered with DATA 0x00, and nothing else is done (R13). -/
theorem transact_of_raises (raised : Raises s (decode w) st) : transact w s = .next (s.answered st 0x00#8) := by
  cases hw : decode w with
  | command i => exact (transact_of_command hw s).trans (exec_of_raises (hw ▸ raised))
  | illegal why =>
    rw [hw] at raised
    cases raised
    exact transact_of_illegal hw s

/-- What a transaction's response holds: it answers what the word decodes to, and its status is that of the checks. -/
theorem response_of_transact {t : State} {r : Response} (h : transact w s = .next t)
    (response : t.responses = s.responses ++ [r]) : Answers s (decode w) r ∧ r.st = statusOf s (decode w) := by
  obtain ⟨r', response', answer⟩ := transact_answeredBy h
  obtain rfl : r' = r := by simpa [response'] using response
  refine ⟨answer, ?_⟩
  by_cases fails : ∃ st, Raises s (decode w) st
  · obtain ⟨st, raised⟩ := fails
    obtain rfl := Host.Outcome.next.inj ((transact_of_raises raised).symm.trans h)
    obtain rfl : ⟨st, 0x00#8⟩ = r' := by simpa using response
    exact raised.statusOf_eq.symm
  · have passes : statusOf s (decode w) = .ok := not_imp_comm.mp exists_raises_of_statusOf fails
    exact (not_imp_comm.mp answer.exists_raises fails).trans passes.symm

/-- An error is answered exactly where a check raises it. -/
theorem answersStatus_iff_raises (error : st ≠ .ok) : answersStatus w s st ↔ Raises s (decode w) st := by
  constructor
  · rintro ⟨t, d, h, response⟩
    obtain ⟨-, rfl⟩ := response_of_transact h response
    obtain ⟨st, raised⟩ := exists_raises_of_statusOf error
    exact raised.statusOf_eq ▸ raised
  · exact fun raised => ⟨_, _, transact_of_raises raised, rfl⟩

end

/-- Settles O17: the status is that of the first check to fail, and a word that does not fit its opcode's format is illegal
whatever its other fields and the flags are. -/
theorem checksAreMadeInOrder : Obligations.ChecksAreMadeInOrder := by
  refine ⟨fun w s t st d h response => ?_, fun a b s hb => ?_, fun a s index => ?_, fun op a b s opcode hb => ?_,
    fun b s hb => ?_⟩
  · exact (response_of_transact h response).2
  · exact answersStatus_illegalCmd_of_not_fits .u (by decide) hb s
  · exact ⟨_, _, (transact_encode (.rcon a) s).trans (exec_rcon_of_out_of_range index), rfl⟩
  · refine answersStatus_illegalCmd_of_not_fits .u ?_ hb s
    obtain rfl | rfl | rfl := opcode <;> decide
  · exact answersStatus_illegalCmd_of_not_fits .u (by decide) hb s

end Sys2Proof.Machine
end

section
/-! What raises each error status, and the words it comes from (R91 to R94). -/

namespace Sys2Proof.Machine

section
variable {s : State} {dec : Decoded}

theorem raises_illegalCmd_iff : Raises s dec .illegalCmd ↔ ∃ why, dec = .illegal why := by
  constructor
  · intro raised
    cases raised with
    | illegal why => exact ⟨why, rfl⟩
  · rintro ⟨why, rfl⟩
    exact .illegal why

theorem raises_noInverse_iff : Raises s dec .noInverse ↔ dec = .command (.gfinv 0x00#8) := by
  constructor
  · intro raised
    cases raised with
    | noInverse => rfl
  · rintro rfl
    exact .noInverse

theorem raises_indexRange_iff : Raises s dec .indexRange ↔ ∃ k : Byte, 10 ≤ k.toNat ∧ dec = .command (.rcon k) := by
  constructor
  · intro raised
    cases raised with
    | indexRange index => exact ⟨_, index, rfl⟩
  · rintro ⟨k, index, rfl⟩
    exact .indexRange index

/-- The three lookups raise ERR_TABLE_NOT_READY, each by its own flag. -/
theorem raises_tableNotReady_iff : Raises s dec .tableNotReady ↔
    (s.sv = false ∧ ∃ k, dec = .command (.sbox k) ∨ dec = .command (.isbox k)) ∨
    (s.rv = false ∧ ∃ k : Byte, k.toNat ≤ 9 ∧ dec = .command (.rcon k)) := by
  constructor
  · intro raised
    cases raised with
    | sboxNotReady k flag => exact .inl ⟨flag, k, .inl rfl⟩
    | isboxNotReady k flag => exact .inl ⟨flag, k, .inr rfl⟩
    | rconNotReady legal flag => exact .inr ⟨flag, _, legal, rfl⟩
  · rintro (⟨flag, k, rfl | rfl⟩ | ⟨flag, k, legal, rfl⟩)
    · exact .sboxNotReady k flag
    · exact .isboxNotReady k flag
    · exact .rconNotReady legal flag

end

/-- A command has one word (R45). -/
theorem decode_eq_command_iff {w : CommandWord} {i : Instr} : decode w = .command i ↔ w = encode i :=
  ⟨fun h => (encode_of_decode h).symm, fun h => h ▸ decode_encode i⟩

/-- An opcode is reserved or has a row of the opcode map (R42, R43). -/
theorem opcode_reserved_or_mapped :
    ∀ op : Byte, (op = 0x00#8 ∨ 0x0B ≤ op.toNat) ∨ ∃ r ∈ opcodeTable, r.opcode = op := by decide

/-- A word is illegal for a reserved opcode or for a must-be-zero bit of its row's format (R43, R44). -/
theorem exists_illegal_iff (w : CommandWord) :
    (∃ why, decode w = .illegal why) ↔ (opField w = 0x00#8 ∨ 0x0B ≤ (opField w).toNat) ∨
      ∃ r ∈ opcodeTable, r.opcode = opField w ∧ ¬ r.format.fits (aField w) (bField w) := by
  constructor
  · rintro ⟨why, hw⟩
    refine (opcode_reserved_or_mapped (opField w)).imp_right ?_
    rintro ⟨r, hr, opcode⟩
    refine ⟨r, hr, opcode, fun fits => ?_⟩
    obtain ⟨i, hi, -⟩ := (matches_iff_decodes hr w).mp ((matches_iff_fields hr w).mpr ⟨opcode.symm, fits⟩)
    exact Decoded.noConfusion (hw.symm.trans hi)
  · rw [← commandWord_fields w, opField_commandWord, aField_commandWord, bField_commandWord]
    rintro (reserved | ⟨r, hr, opcode, unfit⟩)
    · exact ⟨_, decode_of_reserved reserved _ _⟩
    · exact exists_illegal_of_not_fits ⟨r, hr, opcode, rfl⟩ unfit

/-- The must-be-zero bits of format S are zero in the bytes below 8 (R41, R44). -/
theorem shiftPadOf_eq_zero_iff : ∀ b : Byte, shiftPadOf b = 0#5 ↔ b.toNat < 8 := by decide

/-- The rows of the opcode map gathered by format: U, S and N have must-be-zero bits, M has none (R40, R44). -/
theorem exists_unfit_row_iff (op a b : Byte) : (∃ r ∈ opcodeTable, r.opcode = op ∧ ¬ r.format.fits a b) ↔
    (op ∈ [0x01#8, 0x03#8, 0x05#8, 0x08#8, 0x09#8, 0x0A#8] ∧ b ≠ 0x00#8) ∨ (op = 0x04#8 ∧ 8 ≤ b.toNat) ∨
      (op ∈ [0x06#8, 0x07#8] ∧ (a ≠ 0x00#8 ∨ b ≠ 0x00#8)) := by
  simp only [opcodeTable, List.exists_mem_cons_iff, List.not_mem_nil, false_and, exists_false, Format.fits,
    shiftPadOf_eq_zero_iff, eq_comm (b := op)]
  simp only [List.mem_cons, List.not_mem_nil, not_lt, not_and_or, not_true_eq_false, and_false, or_and_right]
  grind only

/-- Settles O18: decoding alone raises ERR_ILLEGAL_CMD, by the opcode and the bits its format leaves zero. -/
theorem illegalStatusDependsOnTheWordAlone : Obligations.IllegalStatusDependsOnTheWordAlone := by
  have words (w : CommandWord) (s : State) :=
    calc answersStatus w s .illegalCmd
      _ ↔ Raises s (decode w) .illegalCmd := answersStatus_iff_raises (by decide)
      _ ↔ ∃ why, decode w = .illegal why := raises_illegalCmd_iff
      _ ↔ _ := (exists_illegal_iff w).trans (or_congr_right (exists_unfit_row_iff _ _ _))
  refine ⟨words, fun s w hw => (words w s).mpr ?_⟩
  simp only [List.mem_cons, List.not_mem_nil, or_false] at hw
  obtain rfl | rfl | rfl | rfl | rfl | rfl := hw <;> decide

/-- Settles O19: ERR_NO_INVERSE is raised of one command, which has one word. -/
theorem noInverseOnlyFromGfinvOfZero : Obligations.NoInverseOnlyFromGfinvOfZero := by
  intro w s
  rw [answersStatus_iff_raises (by decide), raises_noInverse_iff]
  exact decode_eq_command_iff

/-- Settles O20: ERR_INDEX_RANGE is raised of the RCON commands with an index of 10 or more, each of which has one word. -/
theorem indexRangeOnlyFromRcon : Obligations.IndexRangeOnlyFromRcon := by
  intro w s
  rw [answersStatus_iff_raises (by decide), raises_indexRange_iff]
  simp only [decode_eq_command_iff, encode]

end Sys2Proof.Machine
end

section
/-! ERR_TABLE_NOT_READY (R94): the one status that depends on the state, and the cure. -/

namespace Sys2Proof.Machine

section
variable {s s' : State} {dec : Decoded} {st : Status}

/-- Every other check reads the word alone (R95). -/
theorem Raises.of_any_state (raised : Raises s dec st) (ready : st ≠ .tableNotReady) : Raises s' dec st := by
  cases raised with
  | illegal why => exact .illegal why
  | noInverse => exact .noInverse
  | indexRange index => exact .indexRange index
  | sboxNotReady => exact absurd rfl ready
  | isboxNotReady => exact absurd rfl ready
  | rconNotReady => exact absurd rfl ready

theorem statusOf_eq_of_error (error : statusOf s dec ≠ .ok) (ready : statusOf s dec ≠ .tableNotReady) :
    statusOf s' dec = statusOf s dec := by
  obtain ⟨st, raised⟩ := exists_raises_of_statusOf error
  obtain rfl := raised.statusOf_eq
  exact (raised.of_any_state ready).statusOf_eq

/-- The status tells two states apart only by being ERR_TABLE_NOT_READY in one of them. -/
theorem statusOf_eq_of_ready (ready : statusOf s dec ≠ .tableNotReady) (ready' : statusOf s' dec ≠ .tableNotReady) :
    statusOf s dec = statusOf s' dec := by
  by_cases passes : statusOf s dec = .ok
  · by_cases passes' : statusOf s' dec = .ok
    · rw [passes, passes']
    · exact statusOf_eq_of_error passes' ready'
  · exact (statusOf_eq_of_error passes ready).symm

end

section
variable {s : State} {k : Byte}

theorem statusOf_sbox_ok_iff : statusOf s (.command (.sbox k)) = .ok ↔ s.sv = true := by simp [statusOf]

theorem statusOf_isbox_ok_iff : statusOf s (.command (.isbox k)) = .ok ↔ s.sv = true := by simp [statusOf]

theorem statusOf_rcon_ok_iff : statusOf s (.command (.rcon k)) = .ok ↔ k.toNat < rconSize ∧ s.rv = true := by
  by_cases index : 10 ≤ k.toNat
  · simp [statusOf, rconSize, index, not_lt.mpr index]
  · simp [statusOf, rconSize, index, not_le.mp index]

end

/-- The DATA of an OK response is the command's result (R46). -/
theorem Answers.data_of_ok {s : State} {dec : Decoded} {r : Response} (answer : Answers s dec r) (passes : r.st = .ok) :
    ∃ i, dec = .command i ∧ r.data = resultOf s i := by
  cases answer with
  | completed i => exact ⟨i, rfl, rfl⟩
  | _ => cases passes

section
variable {s s' : State} (inv : s.Inv) (inv' : s'.Inv)
include inv inv'

/-- Tables that are both generated answer alike: the result of a command that completes depends on the seed at most. -/
theorem resultOf_eq_of_completes (config : s.config = s'.config) {i : Instr} (passes : statusOf s (.command i) = .ok)
    (passes' : statusOf s' (.command i) = .ok) : resultOf s i = resultOf s' i := by
  have entry_eq {a : Nat} (ha : a < 512) (flag : s.sv = true) (flag' : s'.sv = true) : s.entry a = s'.entry a :=
    congrArg (·.getD 0x00#8) ((inv'.sboxGenerated flag').memRead_eq (inv.sboxGenerated flag) ha)
  cases i with
  | sbox k =>
    rw [statusOf_sbox_ok_iff] at passes passes'
    exact entry_eq (Nat.lt_trans (sboxAddr_lt k) (by decide)) passes passes'
  | isbox k =>
    rw [statusOf_isbox_ok_iff] at passes passes'
    exact entry_eq (invSboxAddr_bounds k).2 passes passes'
  | rcon k =>
    rw [statusOf_rcon_ok_iff] at passes passes'
    obtain ⟨legal, flag⟩ := passes
    obtain ⟨-, flag'⟩ := passes'
    exact congrArg (·.getD 0x00#8)
      (State.RconGenerated.memRead_eq (inv'.rconHeld flag') (inv.rconHeld flag) config.symm legal)
  | _ => rfl

/-- The flags can be told apart by ERR_TABLE_NOT_READY alone (R19, R94). -/
theorem response_eq_of_ready (config : s.config = s'.config) {w : CommandWord} {t t' : State} {r r' : Response}
    (h : transact w s = .next t) (h' : transact w s' = .next t') (response : t.responses = s.responses ++ [r])
    (response' : t'.responses = s'.responses ++ [r']) (ready : r.st ≠ .tableNotReady) (ready' : r'.st ≠ .tableNotReady) :
    r = r' := by
  obtain ⟨answer, status⟩ := response_of_transact h response
  obtain ⟨answer', status'⟩ := response_of_transact h' response'
  have status_eq : r.st = r'.st :=
    calc r.st
      _ = statusOf s (decode w) := status
      _ = statusOf s' (decode w) := statusOf_eq_of_ready (status ▸ ready) (status' ▸ ready')
      _ = r'.st := status'.symm
  have data_eq : r.data = r'.data := by
    by_cases passes : r.st = .ok
    · have passes' : r'.st = .ok := status_eq ▸ passes
      obtain ⟨i, hw, data⟩ := answer.data_of_ok passes
      obtain ⟨i', hw', data'⟩ := answer'.data_of_ok passes'
      obtain rfl : i = i' := Decoded.command.inj (hw.symm.trans hw')
      rw [data, data']
      exact resultOf_eq_of_completes inv inv' config (hw ▸ status.symm.trans passes) (hw ▸ status'.symm.trans passes')
    · rw [answer.data_of_error passes, answer'.data_of_error (status_eq ▸ passes)]
  cases r
  cases r'
  exact congrArg₂ Response.mk status_eq data_eq

end

/-- Settles O21: the three lookups alone have a check on the state; where it passes, each table holds the generated values, and
a generation makes it pass. -/
theorem notReadyOnlyFromUngeneratedTables : Obligations.NotReadyOnlyFromUngeneratedTables := by
  refine ⟨fun w s => ?_, fun w s s' st error ready answered => ?_,
    fun w s s' t t' r r' inv inv' config h h' response response' => ?_,
    fun s t inv next i => ?_, fun s t inv next i legal => ?_⟩
  · rw [answersStatus_iff_raises (by decide), raises_tableNotReady_iff]
    simp only [decode_eq_command_iff, encode]
  · rw [answersStatus_iff_raises error] at answered ⊢
    exact answered.of_any_state ready
  · by_contra! apart
    obtain ⟨differ, ready, ready'⟩ := apart
    exact differ (response_eq_of_ready inv inv' config h h' response response' ready ready')
  · obtain rfl := eq_of_exec_gensbox next
    have tables := s.sboxGenerated_genSbox
    obtain ⟨k, inverse, -⟩ := tables.exists_index i
    exact ⟨answersStatus_encode (exec_sbox_of_held rfl (tables.sbox i)) rfl,
      answersStatus_encode (exec_isbox_of_held rfl inverse) rfl⟩
  · obtain rfl := eq_of_exec_genrcon next
    have held := s.rconGenerated_genRcon i.toNat (Nat.lt_succ_of_le legal)
    exact answersStatus_encode (exec_rcon_of_held legal rfl held) rfl

end Sys2Proof.Machine
end

section
/-! An error is not sticky (R96): no command reads the responses already delivered. -/

namespace Sys2Proof.Machine

/-- The unit as it stands, after other responses. -/
def State.withResponses (s : State) (rs : List Response) : State := { s with responses := rs }

/-- Delivering a response changes the responses alone. -/
theorem State.answered_eq_withResponses (s : State) (st : Status) (d : Byte) :
    s.answered st d = s.withResponses (s.responses ++ [⟨st, d⟩]) := rfl

/-- A command that answers leaves the same unit and adds the same response, whatever responses were delivered before it. -/
theorem exec_withResponses {i : Instr} {s t : State} (h : exec i s = .next t) :
    ∃ (u : State) (r : Response), ∀ rs, exec i (s.withResponses rs) = .next (u.withResponses (rs ++ [r])) := by
  cases i with
  | xtime a => exact ⟨s, ⟨.ok, xtime a⟩, fun _ => rfl⟩
  | gfmul a b => exact ⟨s, ⟨.ok, gfmul a b⟩, fun _ => rfl⟩
  | gfinv a =>
    by_cases zero : a = 0x00#8
    · subst zero
      exact ⟨s, ⟨.noInverse, 0x00#8⟩, fun _ => rfl⟩
    · exact ⟨s, ⟨.ok, gfinv a⟩, fun _ => exec_gfinv_of_ne_zero a _ zero⟩
  | rotl8 x sh => exact ⟨s, ⟨.ok, rotl8 x sh⟩, fun _ => rfl⟩
  | affine x => exact ⟨s, ⟨.ok, affine x⟩, fun _ => rfl⟩
  | gensbox => exact ⟨s.genSboxTables.setSv, ⟨.ok, 0x00#8⟩, fun _ => rfl⟩
  | genrcon => exact ⟨s.genRconTable.setRv, ⟨.ok, 0x00#8⟩, fun _ => rfl⟩
  | sbox k =>
    cases flag : s.sv with
    | true =>
      simp only [exec, execSbox, flag] at h
      obtain ⟨d, held, -⟩ := respondEntry_next h
      exact ⟨s, ⟨.ok, d⟩, fun _ => exec_sbox_of_held flag held⟩
    | false => exact ⟨s, ⟨.tableNotReady, 0x00#8⟩, fun _ => exec_sbox_of_not_ready flag⟩
  | isbox k =>
    cases flag : s.sv with
    | true =>
      simp only [exec, execIsbox, flag] at h
      obtain ⟨d, held, -⟩ := respondEntry_next h
      exact ⟨s, ⟨.ok, d⟩, fun _ => exec_isbox_of_held flag held⟩
    | false => exact ⟨s, ⟨.tableNotReady, 0x00#8⟩, fun _ => exec_isbox_of_not_ready flag⟩
  | rcon k =>
    by_cases legal : k.toNat ≤ 9
    · cases flag : s.rv with
      | true =>
        simp only [exec, execRcon, rconIndexLegal, legal, decide_true, if_true, flag] at h
        obtain ⟨d, held, -⟩ := respondEntry_next h
        exact ⟨s, ⟨.ok, d⟩, fun _ => exec_rcon_of_held legal flag held⟩
      | false => exact ⟨s, ⟨.tableNotReady, 0x00#8⟩, fun _ => exec_rcon_of_not_ready legal flag⟩
    · exact ⟨s, ⟨.indexRange, 0x00#8⟩, fun _ => exec_rcon_of_out_of_range (by omega)⟩

theorem transact_withResponses {w : CommandWord} {s t : State} (h : transact w s = .next t) :
    ∃ (u : State) (r : Response), ∀ rs, transact w (s.withResponses rs) = .next (u.withResponses (rs ++ [r])) := by
  cases hw : decode w with
  | command i =>
    obtain ⟨u, r, alike⟩ := exec_withResponses (transact_of_command hw s ▸ h)
    exact ⟨u, r, fun rs => (transact_of_command hw _).trans (alike rs)⟩
  | illegal why => exact ⟨s, ⟨.illegalCmd, 0x00#8⟩, fun _ => transact_of_illegal hw _⟩

/-- After an answer that changed nothing else, a word is answered as it would have been without it. -/
theorem transact_answered {w : CommandWord} {s u : State} (h : transact w s = .next u) (st : Status) (d : Byte) :
    ∃ r u', u.responses = s.responses ++ [r] ∧ transact w (s.answered st d) = .next u' ∧
      u'.responses = (s.answered st d).responses ++ [r] ∧ u.sameSbox u' ∧ u.sameRcon u' := by
  rw [State.answered_eq_withResponses]
  obtain ⟨v, r, alike⟩ := transact_withResponses h
  obtain rfl := Host.Outcome.next.inj (h.symm.trans (alike s.responses))
  exact ⟨r, _, rfl, alike _, rfl, ⟨rfl, fun _ _ => rfl⟩, ⟨rfl, fun _ _ => rfl⟩⟩

/-- Settles O16: a failing command adds its response and nothing else, and no command reads the responses. -/
theorem errorsAreNotSticky : Obligations.ErrorsAreNotSticky := by
  intro w s t st d next response error
  obtain rfl : t = s.answered st 0x00#8 := (transact_completedOrFailed next).eq_answered_of_error response error
  refine ⟨s.sameSbox_answered st 0x00#8, s.sameRcon_answered st 0x00#8, fun v u h => transact_answered h st 0x00#8, ?_⟩
  obtain ⟨r, u', again, next', response', -⟩ := transact_answered next st 0x00#8
  obtain rfl : ⟨st, 0x00#8⟩ = r := by simpa using again
  exact ⟨u', 0x00#8, next', response'⟩

end Sys2Proof.Machine
end

section
/-! Decoding by opcode and fields (R39, R45), and the words of assembled lines (R49). -/

namespace Sys2Proof

open Machine

/-- OP is the most significant byte of a word, A the next, B the last (R39). -/
theorem commandWord_toNat (op a b : Byte) :
    (commandWord op a b).toNat = op.toNat * 2 ^ 16 + a.toNat * 2 ^ 8 + b.toNat := by
  have append_toNat {n : Nat} (x : BitVec n) (y : Byte) : (x ++ y).toNat = x.toNat * 2 ^ 8 + y.toNat := by
    rw [BitVec.toNat_append, ← Nat.shiftLeft_add_eq_or_of_lt y.isLt, Nat.shiftLeft_eq]
  rw [commandWord, append_toNat, append_toNat]
  omega

/-- The rotation amount is the byte's number, taken to three bits (R40, R41). -/
theorem shiftOf_eq_ofNat (b : Byte) : shiftOf b = BitVec.ofNat 3 b.toNat := rfl

/-- Settles O2: the decoder has one arm for each row of the opcode map, with the check of the row's format, and one for the
reserved opcodes. -/
theorem decodeIsTotalAndEncodeInvertsIt : Obligations.DecodeIsTotalAndEncodeInvertsIt := by
  refine ⟨commandWord_toNat, fun w => (commandWord_fields w).symm, ?_, ?_, ?_, ?_, ?_, ?_, ?_, ?_, ?_, ?_,
    fun op a b reserved => decode_of_reserved reserved a b,
    fun w why s illegal => ⟨_, transact_of_illegal illegal s, s.onlyAnswered_answered _ _⟩, decode_encode,
    fun _ _ => encode_of_decode⟩
  -- the ten rows
  all_goals
    intro a b
    simp [decode, ifZero, shiftPadOf_eq_zero_iff, shiftOf_eq_ofNat]

/-- Settles O1: each legal word is its command's own, and the illegal ones have a reserved opcode and a nonzero must-be-zero
bit. -/
theorem wordsWrittenOutDecode : Obligations.WordsWrittenOutDecode :=
  ⟨decode_encode (.xtime 0x57#8), decode_encode (.gfmul 0x57#8 0x83#8), decode_encode (.gfinv 0x53#8),
    decode_encode (.rotl8 0xCA#8 7#3), decode_encode (.affine 0xCA#8), decode_encode .gensbox, decode_encode .genrcon,
    decode_encode (.sbox 0x53#8), decode_encode (.isbox 0xED#8), decode_encode (.rcon 9#8),
    decode_of_reserved (.inl rfl) 0x00#8 0x00#8, by decide⟩

/-- The line of a command: its operands as numbers (R49). -/
def Instr.line : Instr → SourceLine
  | .xtime a => .xtime a.toNat
  | .gfmul a b => .gfmul a.toNat b.toNat
  | .gfinv a => .gfinv a.toNat
  | .rotl8 x s => .rotl8 x.toNat s.toNat
  | .affine x => .affine x.toNat
  | .gensbox => .gensbox
  | .genrcon => .genrcon
  | .sbox k => .sbox k.toNat
  | .isbox k => .isbox k.toNat
  | .rcon k => .rcon k.toNat

@[simp] theorem fitsByte_toNat (b : Byte) : fitsByte b.toNat = true := decide_eq_true b.isLt

/-- A command's line is assembled to the command's word: every operand fits its field. -/
theorem assemble_line (i : Instr) : i.line.assemble = some (encode i) := by
  cases i with
  | rotl8 x s =>
    have amount : s.toNat < 8 := s.isLt
    simp [Instr.line, SourceLine.assemble, SourceLine.wellFormed, amount]
  | _ => simp [Instr.line, SourceLine.assemble, SourceLine.wellFormed]

theorem assemble_word (w : CommandWord) : (SourceLine.word w.toNat).assemble = some w := by
  have fits : (SourceLine.word w.toNat).wellFormed = true := decide_eq_true w.isLt
  simp [SourceLine.assemble, fits]

theorem assemble_eq_none_iff (l : SourceLine) : l.assemble = none ↔ l.wellFormed = false := by
  simp [SourceLine.assemble]

theorem fitsByte_eq_false {n : Nat} (large : 256 ≤ n) : fitsByte n = false := decide_eq_false (not_lt.mpr large)

/-- Settles O5: a line is assembled exactly when its operands fit, which those of a command do. -/
theorem assembledLinesDecodeToTheirCommand : Obligations.AssembledLinesDecodeToTheirCommand := by
  refine ⟨fun a => assemble_line (.xtime a), fun a b => assemble_line (.gfmul a b), fun a => assemble_line (.gfinv a),
    fun x s => assemble_line (.rotl8 x s), fun x => assemble_line (.affine x), assemble_line .gensbox,
    assemble_line .genrcon, fun k => assemble_line (.sbox k), fun k => assemble_line (.isbox k),
    fun k => assemble_line (.rcon k), assemble_word, decode_encode, assemble_eq_none_iff, fun n large => ?_,
    fun x s large => ?_, fun w large => ?_⟩
  · simp [assemble_eq_none_iff, SourceLine.wellFormed, fitsByte_eq_false large]
  · simp [assemble_eq_none_iff, SourceLine.wellFormed, large]
  · simpa [assemble_eq_none_iff, SourceLine.wellFormed] using large

end Sys2Proof
end

section
/-! One step of the machine (R52, R110): what it can do, and what every step keeps. -/

namespace Sys2Proof.Machine

section
variable {w : CommandWord} {a : HostAction} {s t : State}

/-- A next state of a step: nothing changed for want of an action, or the host's next action is performed. -/
theorem step_next (h : step s = .next t) :
    (s.host = [] ∧ t = s) ∨ ∃ a rest, s.host = a :: rest ∧ perform a (s.withHost rest) = .next t := by
  cases host : s.host with
  | nil => exact .inl ⟨rfl, Host.Outcome.next.inj (h.symm.trans (step_of_idle host))⟩
  | cons a rest => exact .inr ⟨a, rest, rfl, (step_of_action host).symm.trans h⟩

/-- Settles O10: every action of the host keeps the invariant. -/
theorem stepKeepsTheInvariant : Obligations.StepKeepsTheInvariant := by
  intro s t inv h
  obtain ⟨-, rfl⟩ | ⟨a, rest, -, ha⟩ := step_next h
  · exact inv
  · exact (inv.withHost rest).perform ha

/-- No command touches the seed or the host's plans (R21, R23). -/
theorem transact_sameSurroundings (h : transact w s = .next t) : s.sameSurroundings t := by
  obtain ⟨st, d, rfl⟩ | ⟨-, rfl⟩ | ⟨-, rfl⟩ := transact_next h <;> exact ⟨rfl, rfl⟩

theorem transact_keeps_wf (h : transact w s = .next t) (wf : s.mem.wf = true) : t.mem.wf = true := by
  obtain ⟨st, d, rfl⟩ | ⟨-, rfl⟩ | ⟨-, rfl⟩ := transact_next h
  · exact wf
  · exact writeSboxTables_wf wf
  · exact writeRconTable_wf _ wf

/-- A transaction delivers one response (R46, R52). -/
theorem transact_response (h : transact w s = .next t) : ∃ r, t.responses = s.responses ++ [r] :=
  let ⟨r, response, _⟩ := transact_answeredBy h
  ⟨r, response⟩

theorem perform_sameSurroundings (h : perform a s = .next t) : s.sameSurroundings t := by
  obtain ⟨w, -, hw⟩ | ⟨-, rfl⟩ := perform_next h
  · exact transact_sameSurroundings hw
  · exact ⟨rfl, rfl⟩

theorem perform_keeps_wf (h : perform a s = .next t) (wf : s.mem.wf = true) : t.mem.wf = true := by
  obtain ⟨w, -, hw⟩ | ⟨-, rfl⟩ := perform_next h
  · exact transact_keeps_wf hw wf
  · rfl

/-- Reset delivers no response (R104). -/
theorem perform_responses (h : perform a s = .next t) :
    t.responses = s.responses ∨ ∃ r, t.responses = s.responses ++ [r] := by
  obtain ⟨w, -, hw⟩ | ⟨-, rfl⟩ := perform_next h
  · exact .inr (transact_response hw)
  · exact .inl rfl

end

/-- Settles O11: a step performs one action, and every action keeps the seed and the form of memory. -/
theorem stepKeepsSeedAndMemoryForm : Obligations.StepKeepsSeedAndMemoryForm := by
  intro s t h
  obtain ⟨host, rfl⟩ | ⟨a, rest, host, ha⟩ := step_next h
  · exact ⟨rfl, id, by rw [host, List.tail_nil], .inl rfl⟩
  · obtain ⟨config, plans⟩ := perform_sameSurroundings ha
    have wf := perform_keeps_wf ha
    have responses := perform_responses ha
    exact ⟨config, wf, by rw [plans, host, State.withHost_host, List.tail_cons], responses⟩

section
variable {s : State} (inv : s.Inv)
include inv

/-- With the invariant every action of the host is performed: reset does not stop. -/
theorem perform_answers_of_inv (a : HostAction) : ∃ t, perform a s = .next t := by
  cases a with
  | command w => exact transact_answers_of_inv inv w
  | reset => exact ⟨_, rfl⟩
  | resetDuring w => exact ⟨_, rfl⟩

theorem step_answers_of_inv : ∃ t, step s = .next t := by
  cases host : s.host with
  | nil => exact ⟨s, step_of_idle host⟩
  | cons a rest => exact step_of_action host ▸ perform_answers_of_inv (inv.withHost rest) a

end

/-- Settles O12: with the invariant a lookup whose flag is 1 finds its entry held, so nothing stops. -/
theorem everyTransactionIsAnswered : Obligations.EveryTransactionIsAnswered := by
  refine fun s inv => ⟨fun w => ?_, step_answers_of_inv inv⟩
  obtain ⟨t, h⟩ := transact_answers_of_inv inv w
  obtain ⟨⟨st, d⟩, response⟩ := transact_response h
  obtain ⟨config, host⟩ := transact_sameSurroundings h
  exact ⟨t, st, d, h, response, host, config, inv.transact h⟩

/-- A command word's number, read as a word of the opcode table, is the word. -/
@[simp] theorem tableWord_toNat (w : CommandWord) : tableWord 24 w.toNat = w := by
  rw [tableWord, Nat.mod_eq_of_lt w.isLt, BitVec.ofNat_toNat, BitVec.setWidth_eq]

/-- The word presented is the next action, and the host's plans are as they were. -/
theorem step_withFetchWord (s : State) (nbits w : Nat) :
    step (s.withFetchWord nbits w) = transact (tableWord nbits w) s :=
  step_of_action (s := s.withFetchWord nbits w) (a := .command (tableWord nbits w)) rfl

/-- Settles O7: a step takes the host's first action and performs it. -/
theorem stepPerformsTheNextAction : Obligations.StepPerformsTheNextAction := by
  refine ⟨fun s w rest i host hw => ?_, fun s w rest why host hw => ?_, fun s rest host => step_of_action host,
    fun s w rest host => step_of_action host, fun s host => step_of_idle host, fun s w i hw => ?_⟩
  · exact (step_of_action host).trans (transact_of_command hw _)
  · exact ⟨_, (step_of_action host).trans (transact_of_illegal hw _), State.onlyAnswered_answered _ _ _⟩
  · rw [step_withFetchWord, tableWord_toNat, transact_of_command hw]

/-- Settles O8: reset clears both flags, and each lookup reads its flag before its table. -/
theorem resetLeavesNothingGenerated : Obligations.ResetLeavesNothingGenerated :=
  ⟨rfl, rfl, fun _ => rfl, fun _ => ⟨rfl, rfl, fun _ => rfl, rfl, rfl, rfl⟩,
    fun _ _ => ⟨completesWith_of_exec (exec_sbox_of_not_ready rfl), completesWith_of_exec (exec_isbox_of_not_ready rfl),
      fun legal => completesWith_of_exec (exec_rcon_of_not_ready legal rfl)⟩⟩

/-- Settles O9: the default reset state is the reset of itself. -/
theorem invariantHoldsAtReset : Obligations.InvariantHoldsAtReset :=
  ⟨State.reset.resetUnit_inv, State.resetUnit_inv⟩

theorem respondEntry_of_unwritten {addr : Nat} {s : State} (unwritten : s.memRead addr = none) :
    respondEntry addr s = .fault (.tableEntryUnwritten addr) := by
  rw [respondEntry, unwritten]

/-- Settles O14: a lookup whose flag is 1 responds with its entry, and that stops where nothing is held. -/
theorem lookupOfAnUnwrittenEntryFaults : Obligations.LookupOfAnUnwrittenEntryFaults := by
  refine ⟨fun s i flag unwritten => ?_, fun s i flag unwritten => ?_, fun s i flag legal unwritten => ?_⟩
  · rw [exec, execSbox, flag, respondEntry_of_unwritten unwritten]
  · rw [exec, execIsbox, flag, respondEntry_of_unwritten unwritten]
  · rw [exec, execRcon, rconIndexLegal, decide_eq_true legal, if_pos rfl, flag, respondEntry_of_unwritten unwritten]

end Sys2Proof.Machine
end

section
/-! Runs of command words (R108): what a list of transactions keeps, and how long lists are made of short ones. -/

namespace Sys2Proof.Machine

section
variable {s t u : State} {w : CommandWord} {ws : List CommandWord}

theorem transactAll_cons_of_next (h : transact w s = .next t) : transactAll (w :: ws) s = transactAll ws t := by
  rw [transactAll, h]

/-- A run that ends begins with a transaction that answers. -/
theorem transactAll_cons_next (h : transactAll (w :: ws) s = .next u) :
    ∃ t, transact w s = .next t ∧ transactAll ws t = .next u := by
  rw [transactAll] at h
  cases first : transact w s with
  | next t => exact ⟨t, rfl, by rwa [first] at h⟩
  | fault r => simp [first] at h
  | refused r => simp [first] at h

/-- What every transaction keeps, a run keeps. -/
theorem transactAll_keeps {P : State → Prop} (keeps : ∀ {w s t}, transact w s = .next t → P s → P t)
    (h : transactAll ws s = .next t) (start : P s) : P t := by
  induction ws generalizing s with
  | nil => exact Host.Outcome.next.inj h ▸ start
  | cons w ws ih =>
    obtain ⟨u, first, rest⟩ := transactAll_cons_next h
    exact ih rest (keeps first start)

/-- A run of a longer list passes through the end of a run of its beginning. -/
theorem transactAll_append_next {us : List CommandWord} (h : transactAll (us ++ ws) s = .next t) :
    ∃ u, transactAll us s = .next u ∧ transactAll ws u = .next t := by
  induction us generalizing s with
  | nil => exact ⟨s, rfl, h⟩
  | cons w us ih =>
    obtain ⟨v, first, rest⟩ := transactAll_cons_next h
    obtain ⟨u, start, finish⟩ := ih rest
    exact ⟨u, (transactAll_cons_of_next first).trans start, finish⟩

/-- A run begins with the response of its first transaction. -/
theorem runsTo_cons_of_transact {r : Response} {rs : List Response} (h : transact w s = .next t)
    (response : t.responses = s.responses ++ [r]) (rest : runsTo ws t u rs) : runsTo (w :: ws) s u (r :: rs) := by
  obtain ⟨runs, responses, length⟩ := rest
  refine ⟨(transactAll_cons_of_next h).trans runs, ?_, congrArg (· + 1) length⟩
  rw [responses, response, List.append_assoc, List.singleton_append]

/-- With the invariant every run ends, with one response per command (R52, R108). -/
theorem exists_runsTo (inv : s.Inv) (ws : List CommandWord) : ∃ t rs, runsTo ws s t rs := by
  induction ws generalizing s with
  | nil => exact ⟨s, [], runsTo_nil s⟩
  | cons w ws ih =>
    obtain ⟨t, h⟩ := transact_answers_of_inv inv w
    obtain ⟨r, response⟩ := transact_response h
    obtain ⟨u, rs, rest⟩ := ih (inv.transact h)
    exact ⟨u, r :: rs, runsTo_cons_of_transact h response rest⟩

theorem State.Inv.transactAll (inv : s.Inv) (h : transactAll ws s = .next t) : t.Inv :=
  transactAll_keeps (P := State.Inv) (fun next inv => inv.transact next) h inv

theorem transactAll_sameSurroundings (h : transactAll ws s = .next t) : s.sameSurroundings t := by
  refine transactAll_keeps (P := s.sameSurroundings) ?_ h ⟨rfl, rfl⟩
  rintro w u v next ⟨config, host⟩
  obtain ⟨config', host'⟩ := transact_sameSurroundings next
  exact ⟨config'.trans config, host'.trans host⟩

/-- No run clears a valid flag. -/
theorem transactAll_keeps_flags (h : transactAll ws s = .next t) :
    (s.sv = true → t.sv = true) ∧ (s.rv = true → t.rv = true) :=
  ⟨transactAll_keeps (P := fun u => u.sv = true) (fun next => (transact_keeps_flags next).1) h,
    transactAll_keeps (P := fun u => u.rv = true) (fun next => (transact_keeps_flags next).2) h⟩

end

/-- Settles O43: whatever comes between, the flag stays 1 and the invariant holds, so the table still holds the generated
values. -/
theorem lookupAfterGenerationReadsTheGeneratedValue : Obligations.LookupAfterGenerationReadsTheGeneratedValue := by
  refine ⟨fun s t ws inv generation => ?_, fun s t ws inv generation => ?_⟩
  · obtain rfl := eq_of_exec_gensbox generation
    have inv' := inv.genSbox.answered .ok 0x00#8
    obtain ⟨u, rs, run, -⟩ := exists_runsTo inv' ws
    have flag : u.sv = true := (transactAll_keeps_flags run).1 rfl
    have held := inv'.transactAll run
    exact ⟨u, run, fun i =>
      ⟨completesWith_of_exec (held.exec_sbox flag rfl), completesWith_of_exec (held.exec_isbox flag rfl)⟩⟩
  · obtain rfl := eq_of_exec_genrcon generation
    have inv' := inv.genRcon.answered .ok 0x00#8
    obtain ⟨u, rs, run, -⟩ := exists_runsTo inv' ws
    have flag : u.rv = true := (transactAll_keeps_flags run).2 rfl
    have seed : u.config = s.config := (transactAll_sameSurroundings run).1
    refine ⟨u, run, fun i legal => completesWith_of_exec ((inv'.transactAll run).exec_rcon flag legal ?_)⟩
    rw [seed, rconEntry_eq_applyTimes]

/-! ### The machine's own run -/

/-- The same outcome, its next state with other plans of the host. -/
def withPlans (plans : List HostAction) : Host.Outcome State Fault Refusal → Host.Outcome State Fault Refusal
  | .next s => .next (s.withHost plans)
  | .fault r => .fault r
  | .refused r => .refused r

section
variable (plans : List HostAction) (s : State)

theorem respondEntry_withHost (addr : Nat) :
    respondEntry addr (s.withHost plans) = withPlans plans (respondEntry addr s) := by
  cases entry : s.memRead addr with
  | some d => rw [respondEntry_of_held entry, respondEntry_of_held (s := s.withHost plans) entry]; rfl
  | none => rw [respondEntry_of_unwritten entry, respondEntry_of_unwritten (s := s.withHost plans) entry]; rfl

/-- No command reads what the host will do (R21). -/
theorem exec_withHost (i : Instr) : exec i (s.withHost plans) = withPlans plans (exec i s) := by
  cases i with
  | gfinv a =>
    simp only [exec, execGfinv]
    split <;> rfl
  | sbox k =>
    simp only [exec, execSbox, State.withHost_sv]
    split
    · exact respondEntry_withHost plans s _
    · rfl
  | isbox k =>
    simp only [exec, execIsbox, State.withHost_sv]
    split
    · exact respondEntry_withHost plans s _
    · rfl
  | rcon k =>
    simp only [exec, execRcon, State.withHost_rv]
    split
    · split
      · exact respondEntry_withHost plans s _
      · rfl
    · rfl
  | _ => rfl

theorem transact_withHost (w : CommandWord) : transact w (s.withHost plans) = withPlans plans (transact w s) := by
  cases hw : decode w with
  | command i => rw [transact_of_command hw, transact_of_command hw, exec_withHost]
  | illegal why => rw [transact_of_illegal hw, transact_of_illegal hw]; rfl

end

/-- The first step of a machine presented with a list of words is the first word's transaction. -/
theorem step_withCommands_cons (w : CommandWord) (ws : List CommandWord) (s : State) :
    step (s.withCommands (w :: ws)) = withPlans (ws.map .command ++ s.host) (transact w s) :=
  (step_of_action (s := s.withCommands (w :: ws)) rfl).trans (transact_withHost _ s w)

section
variable {M : Host.Core} {s : M.State} (k : Nat)

theorem run_succ_of_next {t : M.State} (h : M.step s = .next t) : M.run (k + 1) s = M.run k t := by
  rw [Host.Core.run, h]

theorem run_succ_of_fault {r : M.Fault} (h : M.step s = .fault r) : M.run (k + 1) s = .fault r := by
  rw [Host.Core.run, h]

theorem run_succ_of_refused {r : M.Refusal} (h : M.step s = .refused r) : M.run (k + 1) s = .refused r := by
  rw [Host.Core.run, h]

end

/-- The machine's steps over a list of words are the words' transactions (R108). -/
theorem run_withCommands (s : State) (ws : List CommandWord) :
    Host.Core.run Sys2Proof.core ws.length (s.withCommands ws) = transactAll ws s := by
  induction ws generalizing s with
  | nil => rfl
  | cons w ws ih =>
    have first := step_withCommands_cons w ws s
    cases h : transact w s with
    | next t =>
      rw [h, ← (transact_sameSurroundings h).2] at first
      rw [transactAll_cons_of_next h, ← ih t]
      exact run_succ_of_next (M := Sys2Proof.core) ws.length first
    | fault r =>
      rw [h] at first
      rw [transactAll, h]
      exact run_succ_of_fault (M := Sys2Proof.core) ws.length first
    | refused r =>
      rw [h] at first
      rw [transactAll, h]
      exact run_succ_of_refused (M := Sys2Proof.core) ws.length first

/-- Settles O44: step and transaction agree word by word, and with the invariant each word is answered. -/
theorem runAnswersEveryCommandInOrder : Obligations.RunAnswersEveryCommandInOrder := by
  refine ⟨run_withCommands, fun s ws inv => ?_, fun s us ws t => transactAll_append_next⟩
  obtain ⟨t, rs, run⟩ := exists_runsTo inv ws
  have next := run.1
  exact ⟨t, rs, run, (transactAll_sameSurroundings next).2, inv.transactAll next⟩

end Sys2Proof.Machine
end

section
/-! The ports (R51, R52, R103, R104): what a cycle without reset can do, and the transactions that a list of cycles carries. -/

namespace Sys2Proof.Machine

/-! ### What the ports show in each phase -/

section
variable {s t : State} {w : CommandWord} {c : ClockedUnit} {i : PortsIn}

theorem cmdReady_iff_idle (quiet : i.rst = false) : c.cmdReady i = true ↔ c.phase = .idle := by
  cases phase : c.phase <;> simp [ClockedUnit.cmdReady, quiet, phase]

/-- A unit with a command in flight accepts no other (R52). -/
theorem accepts_eq_false (busy : c.phase ≠ .idle) : c.accepts i = false := by
  cases phase : c.phase with
  | idle => exact absurd phase busy
  | _ => simp [ClockedUnit.accepts, ClockedUnit.cmdReady, phase]

theorem accepts_of_idle (quiet : i.rst = false) (idle : c.phase = .idle) : c.accepts i = i.cmdValid := by
  rw [ClockedUnit.accepts, (cmdReady_iff_idle quiet).mpr idle, Bool.and_true]

/-- While rst is 1 nothing is accepted (R103). -/
theorem accepts_of_reset (reset : i.rst = true) : c.accepts i = false := by
  simp [ClockedUnit.accepts, ClockedUnit.cmdReady, reset]

/-- While rst is 1 no response is presented (R103). -/
theorem rsp_of_reset (reset : i.rst = true) : c.rsp i = none := if_pos reset

theorem delivers_of_rsp_none (none : c.rsp i = none) : c.delivers i = false := by
  rw [ClockedUnit.delivers, none, Option.isSome_none, Bool.and_false]

theorem rsp_of_idle (idle : c.phase = .idle) : c.rsp i = none := by
  simp [ClockedUnit.rsp, idle]

theorem rsp_of_busy (busy : c.phase = .busy w) : c.rsp i = none := by
  simp [ClockedUnit.rsp, busy]

/-- The response presented is the one delivery adds (R46, R51). -/
theorem rsp_of_answering (quiet : i.rst = false) (answering : c.phase = .answering w t) :
    c.rsp i = t.lastResponse.map Response.word := by
  simp [ClockedUnit.rsp, quiet, answering, State.lastResponse]

theorem lastResponse_of_transact (h : transact w s = .next t) :
    ∃ r, t.responses = s.responses ++ [r] ∧ t.lastResponse = some r := by
  obtain ⟨r, response⟩ := transact_response h
  exact ⟨r, response, by rw [State.lastResponse, response, List.getLast?_concat]⟩

/-! ### One cycle -/

theorem cycle_of_reset (reset : i.rst = true) : c.cycle i = { unit := c.unit.resetUnit, phase := .idle } := if_pos reset

theorem cycle_of_idle (quiet : i.rst = false) (idle : c.phase = .idle) :
    c.cycle i = if i.cmdValid then { c with phase := .busy i.cmd } else c := by
  simp [ClockedUnit.cycle, quiet, idle, accepts_of_idle quiet idle]

theorem cycle_of_busy (quiet : i.rst = false) (busy : c.phase = .busy w) (h : transact w c.unit = .next t) :
    c.cycle i = if i.finishes then { c with phase := .answering w t } else c := by
  simp [ClockedUnit.cycle, ClockedUnit.finish, quiet, busy, h]

theorem cycle_of_answering (quiet : i.rst = false) (answering : c.phase = .answering w t) :
    c.cycle i = if c.delivers i then { unit := t, phase := .idle } else c := by
  simp [ClockedUnit.cycle, quiet, answering]

end

/-- What a cycle without reset can do to a unit that answers every command. The unit's state changes by the delivery of a
response alone, and the command accepted is kept in flight until then (R52). -/
inductive CycleResult (c : ClockedUnit) (i : PortsIn) : ClockedUnit → Prop where
  /-- No response is delivered. -/
  | inProgress {c' : ClockedUnit} (unit : c'.unit = c.unit) (silent : c.delivers i = false)
      (inFlight : c.phase.inFlight ++ (if c.accepts i then [i.cmd] else []) = c'.phase.inFlight)
      (answers : ∀ w t, c'.phase = .answering w t → transact w c.unit = .next t) : CycleResult c i c'
  /-- The command in flight is answered. -/
  | answered {c' : ClockedUnit} {w : CommandWord} {r : Response} (inFlight : c.phase.inFlight = [w])
      (notAccepted : c.accepts i = false) (next : transact w c.unit = .next c'.unit)
      (response : c'.unit.responses = c.unit.responses ++ [r]) (delivers : c.delivers i = true)
      (rsp : c.rsp i = some r.word) (idle : c'.phase = .idle) : CycleResult c i c'

section
variable {c : ClockedUnit} {i : PortsIn} (consistent : c.consistent)
include consistent

/-- A cycle that changes nothing is one in which a response was not taken, or a command not presented or not finished. -/
theorem cycleResult_self (notAccepted : c.accepts i = false) (silent : c.delivers i = false) : CycleResult c i c := by
  obtain ⟨-, answers⟩ := consistent
  exact .inProgress rfl silent (by simp [notAccepted]) answers

theorem cycle_result (quiet : i.rst = false) : CycleResult c i (c.cycle i) := by
  cases phase : c.phase with
  | idle =>
    have silent : c.delivers i = false := delivers_of_rsp_none (rsp_of_idle phase)
    have accepts := accepts_of_idle quiet phase
    rw [cycle_of_idle quiet phase]
    split
    case isTrue presented =>
      exact .inProgress rfl silent (by simp [phase, accepts, presented, Phase.inFlight]) (fun _ _ h => nomatch h)
    case isFalse absent => exact cycleResult_self consistent (by simpa [accepts] using absent) silent
  | busy w =>
    have silent : c.delivers i = false := delivers_of_rsp_none (rsp_of_busy phase)
    have notAccepted : c.accepts i = false := accepts_eq_false (by simp [phase])
    obtain ⟨t, h⟩ := transact_answers_of_inv consistent.1 w
    rw [cycle_of_busy quiet phase h]
    split
    case isTrue =>
      refine .inProgress rfl silent (by simp [phase, notAccepted, Phase.inFlight]) fun w' t' answering => ?_
      obtain ⟨rfl, rfl⟩ := Phase.answering.inj answering
      exact h
    case isFalse => exact cycleResult_self consistent notAccepted silent
  | answering w t =>
    have notAccepted : c.accepts i = false := accepts_eq_false (by simp [phase])
    have next := consistent.2 w t phase
    obtain ⟨r, response, last⟩ := lastResponse_of_transact next
    rw [cycle_of_answering quiet phase]
    split
    case isTrue delivers =>
      exact .answered (by rw [phase, Phase.inFlight]) notAccepted next response delivers
        (by rw [rsp_of_answering quiet phase, last, Option.map_some]) rfl
    case isFalse silent => exact cycleResult_self consistent notAccepted (by simpa using silent)

/-- A cycle keeps the unit consistent: what it presents is the transaction of the command in flight. -/
theorem consistent_cycle : (c.cycle i).consistent := by
  cases reset : i.rst with
  | true =>
    rw [cycle_of_reset reset]
    exact ⟨c.unit.resetUnit_inv, fun _ _ h => nomatch h⟩
  | false =>
    cases cycle_result consistent reset with
    | inProgress unit _ _ answers => exact ⟨unit ▸ consistent.1, fun w t h => unit ▸ answers w t h⟩
    | answered _ _ next _ _ _ idle => exact ⟨consistent.1.transact next, fun _ _ h => nomatch idle.symm.trans h⟩

end

/-! ### Lists of cycles -/

section
variable {c : ClockedUnit} {i : PortsIn} {is : List PortsIn}

theorem accepted_cons : c.accepted (i :: is) = (if c.accepts i then [i.cmd] else []) ++ (c.cycle i).accepted is := by
  rw [ClockedUnit.accepted]
  split <;> rfl

theorem delivered_cons_of_silent (silent : c.delivers i = false) : c.delivered (i :: is) = (c.cycle i).delivered is := by
  simp [ClockedUnit.delivered, silent]

theorem delivered_cons_of_rsp {r : ResponseWord} (delivers : c.delivers i = true) (rsp : c.rsp i = some r) :
    c.delivered (i :: is) = r :: (c.cycle i).delivered is := by
  simp [ClockedUnit.delivered, delivers, rsp]

/-- The simulation from any consistent unit: the command in flight at the start comes first. -/
theorem exists_transactions (consistent : c.consistent) (quiet : ∀ i ∈ is, i.rst = false) :
    ∃ done rs, c.phase.inFlight ++ c.accepted is = done ++ (c.cycles is).phase.inFlight ∧
      runsTo done c.unit (c.cycles is).unit rs ∧ c.delivered is = rs.map Response.word := by
  induction is generalizing c with
  | nil => exact ⟨[], [], by simp [ClockedUnit.accepted, ClockedUnit.cycles], runsTo_nil c.unit, rfl⟩
  | cons i is ih =>
    obtain ⟨done, rs, accepted, runs, delivered⟩ :=
      ih (consistent_cycle (i := i) consistent) fun j hj => quiet j (List.mem_cons_of_mem i hj)
    have result := cycle_result consistent (quiet i (List.mem_cons_self ..))
    rw [accepted_cons, ClockedUnit.cycles]
    cases result with
    | inProgress unit silent inFlight =>
      refine ⟨done, rs, ?_, unit ▸ runs, ?_⟩
      · rw [← List.append_assoc, inFlight, accepted]
      · rw [delivered_cons_of_silent silent, delivered]
    | @answered w r inFlight notAccepted next response delivers rsp idle =>
      refine ⟨w :: done, r :: rs, ?_, runsTo_cons_of_transact next response runs, ?_⟩
      · rw [idle, Phase.inFlight, List.nil_append] at accepted
        simp [inFlight, notAccepted, accepted]
      · rw [delivered_cons_of_rsp delivers rsp, delivered, List.map_cons]

end

/-- Settles O52: from an idle unit nothing is in flight at the start, so the commands accepted are those answered and the one in
flight at the end. -/
theorem portsCarryTheTransaction : Obligations.PortsCarryTheTransaction := by
  intro c is inv idle quiet
  have consistent : c.consistent := ⟨inv, fun w t answering => nomatch idle.symm.trans answering⟩
  obtain ⟨done, rs, accepted, carried⟩ := exists_transactions consistent quiet
  rw [idle, Phase.inFlight, List.nil_append] at accepted
  exact ⟨done, rs, accepted, carried⟩

/-- Settles O53: reset comes before everything else in its cycle; in another cycle the state changes by a transaction or not
at all. -/
theorem resetInputClearsTheUnit : Obligations.ResetInputClearsTheUnit := by
  refine ⟨fun c i reset => ?_, fun c i consistent => consistent_cycle consistent, fun c i consistent quiet => ?_⟩
  · rw [cycle_of_reset reset]
    exact ⟨by simp [ClockedUnit.cmdReady, reset], rsp_of_reset reset, rfl, rfl, rfl, fun _ => rfl⟩
  · have inv := consistent.1
    cases cycle_result consistent quiet with
    | inProgress unit =>
      rw [unit]
      exact ⟨fun _ => ⟨rfl, fun _ _ => rfl⟩, fun _ => ⟨rfl, fun _ _ => rfl⟩⟩
    | answered _ _ next => exact ⟨transact_keeps_sbox inv next, transact_keeps_rcon inv next⟩

/-- Three cycles carry a transaction: accept, finish, deliver (R51, R52). -/
theorem cycles_of_transact {c : ClockedUnit} {i j k : PortsIn} {t : State} (idle : c.phase = .idle)
    (h : transact i.cmd c.unit = .next t) (quiet : i.rst = false) (quiet' : j.rst = false) (quiet'' : k.rst = false)
    (presented : i.cmdValid = true) (finishes : j.finishes = true) (taken : k.rspReady = true) :
    c.cycles [i, j, k] = { unit := t, phase := .idle } ∧
      c.delivered [i, j, k] = (t.lastResponse.map Response.word).toList := by
  obtain ⟨r, -, last⟩ := lastResponse_of_transact h
  have accept : c.cycle i = { c with phase := .busy i.cmd } := by rw [cycle_of_idle quiet idle, if_pos presented]
  have finish : (c.cycle i).cycle j = { c with phase := .answering i.cmd t } := by
    rw [accept]
    exact (cycle_of_busy (c := { c with phase := .busy i.cmd }) quiet' rfl h).trans (if_pos finishes)
  have rsp : ((c.cycle i).cycle j).rsp k = some r.word := by
    rw [finish, rsp_of_answering quiet'' rfl, last, Option.map_some]
  have delivers : ((c.cycle i).cycle j).delivers k = true := by
    rw [ClockedUnit.delivers, taken, rsp, Option.isSome_some, Bool.and_true]
  have deliver : ((c.cycle i).cycle j).cycle k = { unit := t, phase := .idle } := by
    rw [finish] at delivers ⊢
    rw [cycle_of_answering quiet'' rfl, if_pos delivers]
  refine ⟨deliver, ?_⟩
  rw [delivered_cons_of_silent (delivers_of_rsp_none (rsp_of_idle idle)),
    delivered_cons_of_silent (delivers_of_rsp_none (rsp_of_busy (congrArg ClockedUnit.phase accept))),
    delivered_cons_of_rsp delivers rsp, last]
  rfl

/-- Without the host or the unit acting, nothing changes. -/
theorem cycle_of_inaction {c : ClockedUnit} {i : PortsIn} (quiet : i.rst = false) (absent : i.cmdValid = false)
    (unfinished : i.finishes = false) (untaken : i.rspReady = false) : c.cycle i = c := by
  cases phase : c.phase with
  | idle => simp [cycle_of_idle quiet phase, absent]
  | busy w => simp [ClockedUnit.cycle, quiet, phase, unfinished]
  | answering w t => simp [cycle_of_answering quiet phase, ClockedUnit.delivers, untaken]

/-- Settles O54: the phase alone tells whether the unit is ready, and each phase waits for one input. -/
theorem handshakeAnswersAnAcceptedCommand : Obligations.HandshakeAnswersAnAcceptedCommand := by
  refine ⟨fun c i => cmdReady_iff_idle, fun c i => accepts_eq_false, fun c i j k t => cycles_of_transact,
    fun c i reset => ⟨?_, ?_, cycle_of_reset reset, rfl⟩, fun c i => cycle_of_inaction⟩
  · exact delivered_cons_of_silent (delivers_of_rsp_none (rsp_of_reset reset))
  · rw [accepted_cons, accepts_of_reset reset]
    rfl

end Sys2Proof.Machine
end

section
/-! What the spec derives of the generated tables (R70, R71, R72, R84), and the order of the two generations (R106). -/

namespace Sys2Proof.Machine

theorem affine_bijective : Function.Bijective affine :=
  Finite.injective_iff_bijective.mp fun _ _ => affine_injective

set_option maxRecDepth 8000 in
/-- The complement of the affine transform takes no byte to its inverse either. -/
theorem gfmul_affine_complement_ne_one : ∀ x : Byte, gfmul (affine x ^^^ 0xFF#8) x ≠ 0x01#8 := by decide

/-- The S-box has no complement point (R70): such an index would be the complemented affine transform of its own inverse. -/
theorem sboxEntry_ne_complement (i : Byte) : sboxEntry i ≠ i ^^^ 0xFF#8 := by
  intro complement
  by_cases zero : i = 0x00#8
  · subst zero
    exact absurd complement (by decide)
  · rw [sboxEntry_ne_zero_index zero] at complement
    apply gfmul_affine_complement_ne_one (gfinv i)
    rw [complement, BitVec.xor_assoc, BitVec.xor_self, BitVec.xor_zero, gfmul_gfinv zero]

/-- The one byte with the transform 0x63 is 0x00 (R70). -/
theorem ne_hex63_iff (v : Byte) : v ≠ 0x63#8 ↔ ∃ x : Byte, x ≠ 0x00#8 ∧ affine x = v := by
  have zero : affine 0x00#8 = 0x63#8 := by decide
  constructor
  · intro other
    obtain ⟨x, rfl⟩ := affine_bijective.surjective v
    exact ⟨x, fun h => other (h ▸ zero), rfl⟩
  · rintro ⟨x, nonzero, rfl⟩ same
    exact nonzero (affine_injective (same.trans zero.symm))

/-- Settles O33: the entries held are the generated ones, and affine is a bijection. -/
theorem sboxMovesEveryIndex : Obligations.SboxMovesEveryIndex := by
  refine ⟨fun s i v inv flag held => ?_, ne_hex63_iff⟩
  obtain rfl : sboxEntry i = v := by simpa [inv.sboxHeld flag] using held
  exact ⟨sboxEntry_ne_self i, sboxEntry_ne_complement i⟩

theorem State.RconGenerated.map_memRead {s : State} (table : s.RconGenerated) {seed : Byte}
    (config : s.config.rconSeed = seed) :
    (List.range 10).map (fun i => s.memRead (rconAddr i)) = ((List.range 10).map (rconEntry seed)).map some := by
  rw [List.map_map]
  exact List.map_congr_left fun i hi => config ▸ table i (List.mem_range.mp hi)

theorem rconEntry_zero_seed (i : Nat) : rconEntry 0x00#8 i = 0x00#8 := by
  induction i with
  | zero => rfl
  | succ i ih => rw [rconEntry, ih, xtime_zero]

/-- Settles O34: the entries are the doublings of the seed, and 0x00 doubles to itself. -/
theorem rconOfTheNamedSeeds : Obligations.RconOfTheNamedSeeds := by
  intro s t generation
  obtain rfl := eq_of_exec_genrcon generation
  have table := s.rconGenerated_genRcon
  refine ⟨fun seed => ?_, fun seed => ?_, fun seed i hi => ?_⟩
  · exact (table.map_memRead seed).trans (by decide)
  · exact (table.map_memRead seed).trans (by decide)
  · exact (table i hi).trans (congrArg some (seed ▸ rconEntry_zero_seed i))

/-- The two generations write different addresses, and each the same values wherever it starts from. -/
theorem writeRconTable_writeSboxTables (seed : Byte) {m : Memory} (wf : m.wf = true) :
    writeRconTable seed (writeSboxTables m) = writeSboxTables (writeRconTable seed m) := by
  refine Memory.ext_read (writeRconTable_wf seed (writeSboxTables_wf wf)) (writeSboxTables_wf (writeRconTable_wf seed wf))
    fun a => ?_
  by_cases low : a < 512
  · rw [read_writeRconTable_elsewhere seed _ (.inl low)]
    obtain ⟨i, rfl⟩ | ⟨i, rfl⟩ := eq_sboxAddr_or_invSboxAddr low
    · rw [read_writeSboxTables_sbox, read_writeSboxTables_sbox]
    · rw [read_writeSboxTables_invSbox, read_writeSboxTables_invSbox]
  · rw [read_writeSboxTables_above _ (not_lt.mp low)]
    by_cases high : flatSize ≤ a
    · rw [read_writeRconTable_elsewhere seed _ (.inr high), read_writeRconTable_elsewhere seed _ (.inr high),
        read_writeSboxTables_above _ (not_lt.mp low)]
    · obtain ⟨i, rfl⟩ := Nat.exists_eq_add_of_le (not_lt.mp low)
      have hi : i < rconSize := by
        unfold flatSize rconSize at *
        omega
      rw [← rconAddr, read_writeRconTable_rcon seed _ hi, read_writeRconTable_rcon seed _ hi]

/-- A run of two commands that both answer. -/
theorem transactAll_pair {i j : Instr} {s t u : State} (first : exec i s = .next t) (second : exec j t = .next u) :
    transactAll [encode i, encode j] s = .next u := by
  rw [transactAll_cons_of_next ((transact_encode i s).trans first),
    transactAll_cons_of_next ((transact_encode j t).trans second), transactAll]

/-- Settles O37: in either order both flags are set, two responses are added and the tables come out the same. -/
theorem generationOrderDoesNotMatter : Obligations.GenerationOrderDoesNotMatter := by
  intro s wf
  rw [transactAll_pair (exec_gensbox s) (exec_genrcon _), transactAll_pair (exec_genrcon s) (exec_gensbox _)]
  have tables := writeRconTable_writeSboxTables s.config.rconSeed wf
  exact congrArg (fun m : Memory => Host.Outcome.next (State.mk m true true s.config s.host _)) tables

/-- Settles O48: a function of bytes with a left inverse is a bijection, and its left inverse is a right inverse too. -/
theorem bijectionCheckCoversBothDirections : Obligations.BijectionCheckCoversBothDirections := by
  intro f g check
  have undone := (checkBijection_iff f g).mp check
  have left : Function.LeftInverse (fun b : Byte => g[b.toFin]) (fun b : Byte => f[b.toFin]) := fun b => by
    simpa using undone b.toFin
  have bijective := Finite.injective_iff_bijective.mp left.injective
  have right := left.rightInverse_of_surjective bijective.surjective
  refine ⟨fun i => ?_, bijective.comp (BitVec.equivFin (m := 8)).symm.bijective⟩
  have index : (BitVec.ofNat 8 i.val).toFin = i := by simp
  simpa [index] using right (BitVec.ofNat 8 i.val)

end Sys2Proof.Machine
end

section
/-! The flat table space read by the lookups (R28), the read-out (R81) and the host's sequence (R86). -/

namespace Sys2Proof.Machine

/-! ### The lookup of a flat address -/

/-- The lookup that reads a flat address (R28, 42_table_lookup.md). -/
def lookupAt (addr : Nat) : Instr :=
  if addr < 256 then .sbox (BitVec.ofNat 8 addr)
  else if addr < 512 then .isbox (BitVec.ofNat 8 (addr - 256))
  else .rcon (BitVec.ofNat 8 (addr - 512))

theorem toNat_ofNat_of_lt {n : Nat} (hn : n < 256) : (BitVec.ofNat 8 n).toNat = n := Nat.mod_eq_of_lt hn

theorem lookupAt_sbox {k : Nat} (hk : k < 256) : lookupAt k = .sbox (BitVec.ofNat 8 k) := if_pos hk

theorem lookupAt_isbox {k : Nat} (hk : k < 256) : lookupAt (256 + k) = .isbox (BitVec.ofNat 8 k) := by
  rw [lookupAt, if_neg (by omega), if_pos (by omega), Nat.add_sub_cancel_left]

theorem lookupAt_rcon (k : Nat) : lookupAt (512 + k) = .rcon (BitVec.ofNat 8 k) := by
  rw [lookupAt, if_neg (by omega), if_neg (by omega), Nat.add_sub_cancel_left]

section
variable {s : State} (inv : s.Inv) (sv : s.sv = true) (rv : s.rv = true)
include inv sv rv

/-- With both tables generated every flat address holds a value (R28). -/
theorem State.Inv.exists_memRead {addr : Nat} (ha : addr < 522) : ∃ v, s.memRead addr = some v := by
  by_cases low : addr < 512
  · obtain ⟨i, rfl⟩ | ⟨i, rfl⟩ := eq_sboxAddr_or_invSboxAddr low
    · exact ⟨_, inv.sboxHeld sv i⟩
    · exact ⟨_, inv.invSboxHeld sv i⟩
  · obtain ⟨k, rfl⟩ := Nat.exists_eq_add_of_le (not_lt.mp low)
    have hk : k < rconSize := by
      unfold rconSize
      omega
    exact ⟨_, inv.rconHeld rv k hk⟩

end

/-- The lookup of a flat address answers the byte held there. -/
theorem exec_lookupAt {s : State} {addr : Nat} {v : Byte} (sv : s.sv = true) (rv : s.rv = true) (ha : addr < 522)
    (held : s.memRead addr = some v) : exec (lookupAt addr) s = .next (s.answered .ok v) := by
  obtain ⟨i, rfl⟩ | ⟨i, rfl⟩ | ⟨i, rfl⟩ := flat_address_cases ha
  · rw [lookupAt_sbox i.isLt]
    exact exec_sbox_of_held sv (by rwa [sboxAddr, toNat_ofNat_of_lt i.isLt])
  · rw [lookupAt_isbox i.isLt]
    exact exec_isbox_of_held sv (by rwa [invSboxAddr, toNat_ofNat_of_lt i.isLt])
  · have index : (BitVec.ofNat 8 i.val).toNat = i.val := toNat_ofNat_of_lt (i.isLt.trans (by decide))
    rw [lookupAt_rcon]
    exact exec_rcon_of_held (index.trans_le (Nat.le_of_lt_succ i.isLt)) rv (by rwa [index])

/-- Settles O42: each flat address holds a value, and its lookup answers it. -/
theorem lookupsReadTheFlatTableSpace : Obligations.LookupsReadTheFlatTableSpace := by
  intro s inv sv rv addr ha
  obtain ⟨v, held⟩ := inv.exists_memRead sv rv ha
  exact ⟨v, held, completesWith_of_exec (exec_lookupAt sv rv ha held)⟩

/-! ### Runs of lookups -/

/-- The response of a command that generates nothing, in a state with the invariant. -/
def responseOf (s : State) (i : Instr) : Response :=
  ⟨statusOf s (.command i), if statusOf s (.command i) = .ok then resultOf s i else 0x00#8⟩

section
variable {s : State} {i : Instr}

theorem exec_eq_answered_responseOf (inv : s.Inv) (notGensbox : i ≠ .gensbox) (notGenrcon : i ≠ .genrcon) :
    exec i s = .next (s.answered (responseOf s i).st (responseOf s i).data) := by
  obtain ⟨t, h⟩ := exec_answers_of_inv inv i
  obtain ⟨st, d, rfl⟩ | ⟨rfl, -⟩ | ⟨rfl, -⟩ := exec_next h
  · obtain ⟨answer, status⟩ := response_of_transact ((transact_encode i s).trans h) rfl
    rw [decode_encode] at answer status
    suffices responseOf s i = ⟨st, d⟩ by rw [this, h]
    obtain rfl : st = statusOf s (.command i) := status
    unfold responseOf
    split
    case isTrue passes =>
      obtain ⟨j, hj, data⟩ := answer.data_of_ok passes
      obtain rfl := Decoded.command.inj hj
      rw [← data]
    case isFalse error => rw [← answer.data_of_error error]
  · exact absurd rfl notGensbox
  · exact absurd rfl notGenrcon

/-- A response does not depend on those delivered before it. -/
theorem responseOf_answered (st : Status) (d : Byte) : responseOf (s.answered st d) i = responseOf s i := by
  cases i <;> rfl

end

/-- A list of commands that generate nothing is answered one by one, and the unit is left as it was. -/
theorem runsTo_of_no_generation {s : State} (inv : s.Inv) {is : List Instr}
    (lookups : ∀ i ∈ is, i ≠ .gensbox ∧ i ≠ .genrcon) :
    ∃ t, runsTo (is.map encode) s t (is.map (responseOf s)) ∧ s.sameSbox t ∧ s.sameRcon t := by
  induction is generalizing s with
  | nil => exact ⟨s, runsTo_nil s, ⟨rfl, fun _ _ => rfl⟩, ⟨rfl, fun _ _ => rfl⟩⟩
  | cons i is ih =>
    obtain ⟨notGensbox, notGenrcon⟩ := lookups i (List.mem_cons_self ..)
    obtain ⟨t, runs, sbox, rcon⟩ := ih (inv.answered _ _) fun j hj => lookups j (List.mem_cons_of_mem i hj)
    refine ⟨t, ?_, sbox, rcon⟩
    rw [List.map_cons, List.map_cons]
    have same : responseOf (s.answered (responseOf s i).st (responseOf s i).data) = responseOf s :=
      funext fun j => responseOf_answered _ _
    exact runsTo_cons (exec_eq_answered_responseOf inv notGensbox notGenrcon) (same ▸ runs)

/-! ### The read-out -/

theorem lookupAt_ne_generation (addr : Nat) : lookupAt addr ≠ .gensbox ∧ lookupAt addr ≠ .genrcon := by
  unfold lookupAt
  split
  · simp
  · split <;> simp

/-- The commands of the read-out are the lookups of the flat addresses in ascending order (R81). -/
theorem readOutCommands_eq : readOutCommands = ((List.range 522).map lookupAt).map encode := by
  have split : List.range 522 = List.range 256 ++ (List.range 256).map (256 + ·) ++ (List.range 10).map (512 + ·) := by
    rw [← List.range_add, ← List.range_add]
  have sbox : allBytes.map (fun i => encode (.sbox i)) = (List.range 256).map (encode ∘ lookupAt) := by
    rw [allBytes, List.map_map]
    exact List.map_congr_left fun k hk => congrArg encode (lookupAt_sbox (List.mem_range.mp hk)).symm
  have isbox : allBytes.map (fun i => encode (.isbox i)) = (List.range 256).map ((encode ∘ lookupAt) ∘ (256 + ·)) := by
    rw [allBytes, List.map_map]
    exact List.map_congr_left fun k hk => congrArg encode (lookupAt_isbox (List.mem_range.mp hk)).symm
  have rcon : (List.range 10).map (fun i => encode (.rcon (BitVec.ofNat 8 i))) =
      (List.range 10).map ((encode ∘ lookupAt) ∘ (512 + ·)) :=
    List.map_congr_left fun k _ => congrArg encode (lookupAt_rcon k).symm
  rw [readOutCommands, rconSize, sbox, isbox, rcon, List.map_map, split, List.map_append, List.map_append, List.map_map,
    List.map_map]

/-- The blob is formed of the responses' DATA when all are OK (R81). -/
theorem blobOf_eq_data {rs : List Response} (passes : ∀ r ∈ rs, r.st = .ok) : blobOf rs = some (rs.map Response.data) := by
  induction rs with
  | nil => rfl
  | cons r rs ih =>
    rw [blobOf, if_pos (passes r (List.mem_cons_self ..)), ih fun q hq => passes q (List.mem_cons_of_mem r hq)]
    rfl

/-- One error, and no blob is formed (R81). -/
theorem blobOf_eq_none {rs : List Response} {r : Response} (hr : r ∈ rs) (error : r.st ≠ .ok) : blobOf rs = none := by
  induction rs with
  | nil => cases hr
  | cons q rs ih =>
    rw [blobOf]
    split
    case isTrue passes =>
      have later : r ∈ rs := (List.mem_cons.mp hr).resolve_left fun h => error (h ▸ passes)
      rw [ih later, Option.map_none]
    case isFalse => rfl

theorem readOut_of_runsTo {s t : State} {rs : List Response} (runs : runsTo readOutCommands s t rs) :
    readOut s = (blobOf rs).map (·, t) := by
  obtain ⟨next, responses, -⟩ := runs
  simp only [readOut, next, State.responsesFrom, responses, List.drop_left]

/-- With the invariant the read-out ends, each lookup with its own response in the state before it (R81). -/
theorem State.Inv.exists_runsTo_readOut {s : State} (inv : s.Inv) : ∃ t,
    runsTo readOutCommands s t (((List.range 522).map lookupAt).map (responseOf s)) ∧ s.sameSbox t ∧ s.sameRcon t := by
  rw [readOutCommands_eq]
  exact runsTo_of_no_generation inv (List.forall_mem_map.mpr fun addr _ => lookupAt_ne_generation addr)

/-- The tables a host would hold of a state's own (R79). -/
def State.tables (s : State) : Tables where
  sbox := Vector.ofFn fun i => s.entry i.val
  inverseSbox := Vector.ofFn fun i => s.entry (256 + i.val)
  rcon := Vector.ofFn fun i => s.entry (512 + i.val)

section
variable {s : State} (inv : s.Inv) (sv : s.sv = true) (rv : s.rv = true)
include inv sv rv

theorem State.Inv.memRead_eq_entry {addr : Nat} (ha : addr < 522) : s.memRead addr = some (s.entry addr) := by
  obtain ⟨v, held⟩ := inv.exists_memRead sv rv ha
  rw [State.entry, held, Option.getD_some]

theorem State.Inv.holdsTables : s.holdsTables s.tables := by
  refine ⟨fun i => ?_, fun i => ?_, fun i => ?_⟩
  · simpa [State.tables] using inv.memRead_eq_entry sv rv (Nat.lt_trans i.isLt (by decide))
  · simpa [State.tables] using inv.memRead_eq_entry sv rv (Nat.lt_trans (Nat.add_lt_add_left i.isLt 256) (by decide))
  · simpa [State.tables] using inv.memRead_eq_entry sv rv (Nat.add_lt_add_left i.isLt 512)

theorem State.Inv.encode_tables : s.tables.encode = (List.range 522).map s.entry := by
  apply List.ext_getElem?
  intro k
  by_cases hk : k < 522
  · rw [(inv.holdsTables sv rv).encode_eq_memRead hk, inv.memRead_eq_entry sv rv hk, List.getElem?_map,
      List.getElem?_range hk, Option.map_some]
  · rw [List.getElem?_eq_none (by simpa using hk), List.getElem?_eq_none (by simpa using hk)]

/-- The lookup of each flat address is answered OK with the byte held there (R28). -/
theorem State.Inv.responseOf_lookupAt {addr : Nat} (ha : addr < 522) :
    responseOf s (lookupAt addr) = ⟨.ok, s.entry addr⟩ := by
  obtain ⟨notGensbox, notGenrcon⟩ := lookupAt_ne_generation addr
  have answered := (exec_eq_answered_responseOf inv notGensbox notGenrcon).symm.trans
    (exec_lookupAt sv rv ha (inv.memRead_eq_entry sv rv ha))
  exact List.singleton_inj.mp (List.append_cancel_left (congrArg State.responses (Host.Outcome.next.inj answered)))

/-- With both tables generated the read-out forms the blob of the unit's tables (R81). -/
theorem State.Inv.exists_readOut : ∃ t, runsTo readOutCommands s t ((List.range 522).map fun addr => ⟨.ok, s.entry addr⟩) ∧
    readOut s = some (s.tables.encode, t) ∧ s.sameSbox t ∧ s.sameRcon t := by
  obtain ⟨t, runs, same⟩ := inv.exists_runsTo_readOut
  have responses : ((List.range 522).map lookupAt).map (responseOf s) =
      (List.range 522).map fun addr => ⟨.ok, s.entry addr⟩ := by
    rw [List.map_map]
    exact List.map_congr_left fun addr ha => inv.responseOf_lookupAt sv rv (List.mem_range.mp ha)
  rw [responses] at runs
  refine ⟨t, runs, ?_, same⟩
  rw [readOut_of_runsTo runs, blobOf_eq_data (List.forall_mem_map.mpr fun _ _ => rfl), List.map_map,
    inv.encode_tables sv rv]
  rfl

end

/-- With a flag 0 one of the lookups is answered ERR_TABLE_NOT_READY (R94). -/
theorem exists_lookup_error {s : State} (flag : s.sv = false ∨ s.rv = false) :
    ∃ addr < 522, (responseOf s (lookupAt addr)).st = .tableNotReady := by
  obtain sv | rv := flag
  · exact ⟨0, by decide, by simp [responseOf, lookupAt, statusOf, sv]⟩
  · exact ⟨512, by decide, by simp [responseOf, lookupAt, statusOf, rv]⟩

/-- Settles O50: the lookups are answered one by one, all OK with both flags 1, and one with an error otherwise. -/
theorem readOutFormsTheBlob : Obligations.ReadOutFormsTheBlob := by
  refine ⟨fun s inv sv rv => ?_, fun s inv flag => ?_⟩
  · obtain ⟨t, runs, blob, same⟩ := inv.exists_readOut sv rv
    refine ⟨s.tables, t, _, inv.holdsTables sv rv, runs, by simp, List.forall_mem_map.mpr fun _ _ => rfl, ?_, blob, same⟩
    rw [inv.encode_tables sv rv, List.map_map]
    rfl
  · obtain ⟨t, runs, -⟩ := inv.exists_runsTo_readOut
    obtain ⟨addr, ha, error⟩ := exists_lookup_error flag
    have mem : responseOf s (lookupAt addr) ∈ ((List.range 522).map lookupAt).map (responseOf s) :=
      List.mem_map_of_mem (List.mem_map_of_mem (List.mem_range.mpr ha))
    rw [readOut_of_runsTo runs, blobOf_eq_none mem (by simp [error]), Option.map_none]

/-! ### The host's sequence -/

/-- How the sequence ends by what storage gives back: the decode and the two checks (R86). -/
def verifyStored (generated : Tables) : Except ErrorKind (List Byte) → PipelineResult
  | .error e => .failed e
  | .ok bytes =>
    match decodeBlob bytes with
    | .error e => .failed e
    | .tables decoded => .verified (verify generated decoded)

/-- Up to storage the sequence always succeeds: it generates tables that pass the first check and reads them out (R86). -/
theorem pipeline_eq_verifyStored {s : State} (inv : s.Inv) :
    ∃ T, checkBijection T.sbox T.inverseSbox = true ∧ ∀ store, pipeline store s = verifyStored T (store T.encode) := by
  have generation := transactAll_pair (exec_gensbox s) (exec_genrcon _)
  have generated := (inv.genSbox.answered .ok 0x00#8).genRcon.answered .ok 0x00#8
  obtain ⟨t, -, blob, -⟩ := generated.exists_readOut rfl rfl
  refine ⟨_, (generated.sboxGenerated rfl).passes_checkBijection (generated.holdsTables rfl rfl), fun store => ?_⟩
  simp only [pipeline, generation, blob, decodeBlob_encode]
  cases store _ with
  | error e => rfl
  | ok bytes => cases decoded : decodeBlob bytes <;> simp [verifyStored, decoded]

theorem verifyStored_of_short {T : Tables} {bytes : List Byte} (short : bytes.length < 522) :
    verifyStored T (.ok bytes) = .failed .truncatedInput := by
  rw [verifyStored, decodeBlob_of_short short]

theorem verifyStored_encode {T : Tables} (bijection : checkBijection T.sbox T.inverseSbox = true) (U : Tables) :
    verifyStored T (.ok U.encode) = .verified { bijection := true, roundTrip := checkRoundTrip T U } := by
  simp only [verifyStored, decodeBlob_encode, verify, bijection]

/-- A blob with a byte changed is the blob of other tables. -/
theorem exists_tables_of_modified (T : Tables) {n : Nat} (hn : n < 522) {d : Byte} (changed : d ≠ 0x00#8) :
    ∃ U, T.encode.modify n (· ^^^ d) = U.encode ∧ T ≠ U := by
  obtain ⟨U, -, begins⟩ := decodeBlob_encode_prefix (blob := T.encode.modify n (· ^^^ d)) (by simp)
  have blob : U.encode = T.encode.modify n (· ^^^ d) := begins.eq_of_length (by simp)
  refine ⟨U, blob.symm, ?_⟩
  rintro rfl
  have full : n < T.encode.length := by rwa [T.encode_length]
  have byte : T.encode[n]? = (T.encode[n]?).map (· ^^^ d) := by
    conv_lhs => rw [blob]
    exact List.getElem?_modify_eq ..
  rw [List.getElem?_eq_getElem full, Option.map_some, Option.some_inj] at byte
  apply changed
  calc d
    _ = T.encode[n] ^^^ (T.encode[n] ^^^ d) := by rw [← BitVec.xor_assoc, BitVec.xor_self, BitVec.zero_xor]
    _ = 0x00#8 := by rw [← byte, BitVec.xor_self]

/-- Settles O51: the first check depends on the tables generated, the second tells tables apart, and a blob with a byte
changed is that of other tables. -/
theorem pipelineVerifiesTheGeneratedTables : Obligations.PipelineVerifiesTheGeneratedTables := by
  refine ⟨fun s inv => ?_, fun s e inv => ?_, fun s n inv hn => ?_, fun s n d inv hn changed => ?_⟩
  all_goals obtain ⟨T, bijection, ends⟩ := pipeline_eq_verifyStored inv
  · rw [ends, verifyStored_encode bijection, (checkRoundTrip_iff T T).mpr rfl]
  · rw [ends, verifyStored]
  · rw [ends, verifyStored_of_short ((List.length_take_le ..).trans_lt hn)]
  · obtain ⟨U, blob, differ⟩ := exists_tables_of_modified T hn changed
    rw [ends, blob, verifyStored_encode bijection, Bool.eq_false_iff.mpr (mt (checkRoundTrip_iff T U).mp differ)]

end Sys2Proof.Machine
end

section
/-! The field's laws and what they give (R59, R61, R63, R66): the nonzero bytes are a group of 255 under multiplication, so the
library's facts on the order of an element apply. -/

namespace Sys2Proof.Machine

/-- The nonzero bytes under multiplication. -/
abbrev NonzeroByte : Type := {a : Byte // a ≠ 0x00#8}

/-- Their group: the product is associative, 0x01 is neutral, and every nonzero byte has its inverse (R59, R66). -/
@[reducible] def nonzeroByteGroup : Group NonzeroByte :=
  let _ : Mul NonzeroByte := ⟨fun a b => ⟨gfmul a.1 b.1, gfmul_ne_zero a.2 b.2⟩⟩
  let _ : Inv NonzeroByte := ⟨fun a => ⟨gfinv a.1, gfinv_ne_zero a.2⟩⟩
  let _ : One NonzeroByte := ⟨⟨0x01#8, by decide⟩⟩
  Group.ofLeftAxioms (fun a b c => Subtype.ext (gfmul_assoc a.1 b.1 c.1)) (fun a => Subtype.ext (gfmul_one_left a.1))
    (fun a => Subtype.ext ((gfmul_comm _ _).trans (gfmul_gfinv a.2)))

theorem card_nonzeroByte : Nat.card NonzeroByte = 255 := by
  have bytes : Fintype.card Byte = 2 ^ 8 :=
    (Fintype.card_congr (BitVec.equivFin (m := 8)).toEquiv).trans (Fintype.card_fin _)
  simp [bytes]

/-- Multiplying 0x01 by a byte n times gives the group's power. -/
theorem applyTimes_gfmul_eq_pow (a : NonzeroByte) (n : Nat) :
    applyTimes (gfmul a.1) n 0x01#8 = (letI := nonzeroByteGroup; a ^ n).1 := by
  let _ := nonzeroByteGroup
  induction n with
  | zero => rfl
  | succ n ih =>
    rw [applyTimes, ih, pow_succ']
    rfl

theorem applyTimes_gfmul_eq_one_iff (a : NonzeroByte) (n : Nat) :
    applyTimes (gfmul a.1) n 0x01#8 = 0x01#8 ↔ letI := nonzeroByteGroup; a ^ n = 1 := by
  let _ := nonzeroByteGroup
  rw [applyTimes_gfmul_eq_pow, Subtype.ext_iff]
  rfl

/-- A byte has order m if its power m is 0x01 and no power m / p is, for the primes p that divide m. -/
theorem applyTimes_gfmul_ne_one {a : Byte} (nonzero : a ≠ 0x00#8) {m : Nat} (positive : 0 < m)
    (power : applyTimes (gfmul a) m 0x01#8 = 0x01#8)
    (proper : ∀ p, p.Prime → p ∣ m → applyTimes (gfmul a) (m / p) 0x01#8 ≠ 0x01#8) {n : Nat} (hn : 0 < n)
    (below : n < m) : applyTimes (gfmul a) n 0x01#8 ≠ 0x01#8 := by
  let _ := nonzeroByteGroup
  have pow_eq_one_iff := applyTimes_gfmul_eq_one_iff ⟨a, nonzero⟩
  simp only [pow_eq_one_iff, ne_eq] at power proper ⊢
  have order := orderOf_eq_of_pow_and_pow_div_prime positive power proper
  exact pow_ne_one_of_lt_orderOf hn.ne' (order ▸ below)

/-- Every nonzero byte's power 255 is 0x01, so its power 254 is its inverse (R59). -/
theorem applyTimes_gfmul_254 {a : Byte} (nonzero : a ≠ 0x00#8) : applyTimes (gfmul a) 254 0x01#8 = gfinv a := by
  let _ := nonzeroByteGroup
  have power : applyTimes (gfmul a) 255 0x01#8 = 0x01#8 :=
    (applyTimes_gfmul_eq_one_iff ⟨a, nonzero⟩ 255).mpr (card_nonzeroByte ▸ pow_card_eq_one')
  exact (gfinv_unique power).symm

theorem applyTimes_xtime_one (n : Nat) : applyTimes xtime n 0x01#8 = applyTimes (gfmul 0x02#8) n 0x01#8 :=
  (applyTimes_xtime_eq_gfmul 0x01#8 n).trans (gfmul_one_left _)

/-- 0x02 has order 51 = 3 * 17. -/
theorem applyTimes_xtime_51 : applyTimes xtime 51 0x01#8 = 0x01#8 := by decide +kernel

theorem applyTimes_xtime_ne_one {n : Nat} (hn : 0 < n) (below : n < 51) : applyTimes xtime n 0x01#8 ≠ 0x01#8 := by
  rw [applyTimes_xtime_one]
  refine applyTimes_gfmul_ne_one (by decide) (by decide) (applyTimes_xtime_one 51 ▸ applyTimes_xtime_51)
    (fun p prime divides => ?_) hn below
  obtain h | h := (Nat.Prime.dvd_mul prime).mp (show p ∣ 3 * 17 from divides)
  · obtain rfl := (Nat.prime_dvd_prime_iff_eq prime (by norm_num)).mp h
    decide +kernel
  · obtain rfl := (Nat.prime_dvd_prime_iff_eq prime (by norm_num)).mp h
    decide +kernel

/-- 0x03 has order 255 = 3 * 5 * 17. -/
theorem applyTimes_gfmul_three_255 : applyTimes (gfmul 0x03#8) 255 0x01#8 = 0x01#8 := by decide +kernel

theorem applyTimes_gfmul_three_ne_one {n : Nat} (hn : 0 < n) (below : n < 255) :
    applyTimes (gfmul 0x03#8) n 0x01#8 ≠ 0x01#8 := by
  refine applyTimes_gfmul_ne_one (by decide) (by decide) applyTimes_gfmul_three_255 (fun p prime divides => ?_) hn below
  obtain h | h := (Nat.Prime.dvd_mul prime).mp (show p ∣ (3 * 5) * 17 from divides)
  · obtain h | h := (Nat.Prime.dvd_mul prime).mp h
    · obtain rfl := (Nat.prime_dvd_prime_iff_eq prime (by norm_num)).mp h
      decide +kernel
    · obtain rfl := (Nat.prime_dvd_prime_iff_eq prime (by norm_num)).mp h
      decide +kernel
  · obtain rfl := (Nat.prime_dvd_prime_iff_eq prime (by norm_num)).mp h
    decide +kernel

/-- A doubling sequence never reaches 0x00 from another byte: doubling is one to one and fixes 0x00. -/
theorem applyTimes_xtime_ne_zero {a : Byte} (nonzero : a ≠ 0x00#8) (n : Nat) : applyTimes xtime n a ≠ 0x00#8 := by
  induction n with
  | zero => exact nonzero
  | succ n ih => exact fun zero => ih (xtime_bijective.injective (zero.trans xtime_zero.symm))

/-- A doubling sequence has period 51, since 0x02 has order 51 (R66). -/
theorem applyTimes_xtime_51_eq_self (a : Byte) : applyTimes xtime 51 a = a := by
  rw [applyTimes_xtime_eq_gfmul, ← applyTimes_xtime_one, applyTimes_xtime_51, gfmul_one_right]

/-- Settles O24: multiplication is the field's, and the orders are those of its multiplicative group. -/
theorem fieldLawsHold : Obligations.FieldLawsHold :=
  ⟨gfmul_comm, gfmul_assoc, gfmul_xor_right, fun a => ⟨gfmul_one_right a, gfmul_zero_right a⟩, gfmul_two,
    fun _ _ zero => by_contra fun h => gfmul_ne_zero (not_or.mp h).1 (not_or.mp h).2 zero,
    fun _ nonzero => ⟨gfmul_gfinv nonzero, fun _ inverse => (gfinv_unique inverse).symm⟩,
    applyTimes_xtime_51, fun _ => applyTimes_xtime_ne_one,
    fun a nonzero => ⟨applyTimes_xtime_51_eq_self a, applyTimes_xtime_ne_zero nonzero⟩,
    applyTimes_gfmul_three_255, fun _ => applyTimes_gfmul_three_ne_one⟩

/-- Doubling, bit by bit (R55): a shift, and the bit shifted out added where 0x1B has a bit. -/
theorem xtime_bits (a : Byte) : (xtime a).getLsbD 7 = a.getLsbD 6 ∧ (xtime a).getLsbD 6 = a.getLsbD 5 ∧
    (xtime a).getLsbD 5 = a.getLsbD 4 ∧ (xtime a).getLsbD 4 = (a.getLsbD 3 ^^ a.getLsbD 7) ∧
    (xtime a).getLsbD 3 = (a.getLsbD 2 ^^ a.getLsbD 7) ∧ (xtime a).getLsbD 2 = a.getLsbD 1 ∧
    (xtime a).getLsbD 1 = (a.getLsbD 0 ^^ a.getLsbD 7) ∧ (xtime a).getLsbD 0 = a.getLsbD 7 := by
  rw [xtime]
  cases bit : a.getLsbD 7 <;> simp [reductionConstant]

/-- The affine transform, bit by bit (R63): the rotations by 1 to 4 bring bits i + 7 to i + 4 to bit i. -/
theorem getLsbD_affine (x : Byte) {i : Nat} (hi : i < 8) : (affine x).getLsbD i =
    (x.getLsbD i ^^ x.getLsbD ((i + 4) % 8) ^^ x.getLsbD ((i + 5) % 8) ^^ x.getLsbD ((i + 6) % 8) ^^
      x.getLsbD ((i + 7) % 8) ^^ (0x63#8).getLsbD i) := by
  calc (affine x).getLsbD i
    _ = (x.getLsbD i ^^ x.getLsbD ((i + 7) % 8) ^^ x.getLsbD ((i + 6) % 8) ^^ x.getLsbD ((i + 5) % 8) ^^
        x.getLsbD ((i + 4) % 8) ^^ (0x63#8).getLsbD i) := by
      simp only [affine, BitVec.getLsbD_xor, getLsbD_rotl8 _ _ hi]
      rfl
    _ = _ := by simp only [Bool.xor_assoc, Bool.xor_comm, Bool.xor_left_comm]

/-- Settles O29: each fact is read off the definition bit by bit, or off the laws of the field. -/
theorem derivedFieldFactsHold : Obligations.DerivedFieldFactsHold :=
  ⟨xtime_bits, gfmul_zero_left,
    fun _ complete _ nonzero => find?_inverse nonzero (complete _ (gfinv_ne_zero nonzero)),
    fun _ => applyTimes_gfmul_254, by decide, by decide, fun x _ => getLsbD_affine x, affine_bijective⟩

end Sys2Proof.Machine
end

section
/-! The assembler text (R49): a written line is its mnemonic and its operands, and the reader takes it apart at the same
places. -/

namespace Sys2Proof.Machine

/-! ### A line and its pieces -/

/-- A text in which the reader finds no place to divide it: a mnemonic or an operand. -/
abbrev Piece (text : List Char) : Prop := text ≠ [] ∧ ∀ c ∈ text, c ≠ ' ' ∧ c ≠ ',' ∧ c ≠ ';'

/-- `Written text mnemonic operands`: the text is this mnemonic and these operands, written as R49 writes a line. -/
inductive Written : List Char → List Char → List (List Char) → Prop where
  | alone {m : List Char} (hm : Piece m) : Written m m []
  | one {m x : List Char} (hm : Piece m) (hx : Piece x) : Written (m ++ ' ' :: x) m [x]
  | two {m x y : List Char} (hm : Piece m) (hx : Piece x) (hy : Piece y) :
      Written (m ++ ' ' :: x ++ ',' :: ' ' :: y) m [x, y]

section
variable {text x y m : List Char} {operands : List (List Char)}

theorem Piece.head?_ne (hx : Piece x) (rest : List Char) : (x ++ rest).head? ≠ some ' ' := by
  obtain ⟨nonempty, clean⟩ := hx
  obtain ⟨c, cs, rfl⟩ := List.exists_cons_of_ne_nil nonempty
  simpa using (clean c (List.mem_cons_self ..)).1

theorem Piece.getLast?_ne (hx : Piece x) (start : List Char) : (start ++ x).getLast? ≠ some ' ' := by
  obtain ⟨nonempty, clean⟩ := hx
  rw [List.getLast?_append_of_ne_nil _ nonempty, List.getLast?_eq_getLast_of_ne_nil nonempty]
  simpa using (clean _ (List.getLast_mem nonempty)).1

theorem Piece.not_mem (hx : Piece x) : ' ' ∉ x ∧ ',' ∉ x ∧ ';' ∉ x :=
  ⟨fun h => (hx.2 _ h).1 rfl, fun h => (hx.2 _ h).2.1 rfl, fun h => (hx.2 _ h).2.2 rfl⟩

theorem trimSpaces_eq_self (first : text.head? ≠ some ' ') (last : text.getLast? ≠ some ' ') : trimSpaces text = text := by
  have drop {t : List Char} (h : t.head? ≠ some ' ') : t.dropWhile (· = ' ') = t := by
    cases t with
    | nil => rfl
    | cons c cs => exact List.dropWhile_cons_of_neg (by simpa using h)
  rw [trimSpaces, drop first, drop (by rwa [List.head?_reverse]), List.reverse_reverse]

theorem trimSpaces_cons_space (text : List Char) : trimSpaces (' ' :: text) = trimSpaces text := by
  rw [trimSpaces, List.dropWhile_cons_of_pos (by decide), trimSpaces]

/-- A space at the end is trimmed whatever comes before it. -/
theorem trimSpaces_append_space (text : List Char) : trimSpaces (text ++ [' ']) = trimSpaces text := by
  rw [trimSpaces, trimSpaces, List.dropWhile_append]
  split
  case isTrue blank => rw [List.isEmpty_iff.mp blank]; rfl
  case isFalse =>
    rw [List.reverse_append, List.reverse_singleton, List.singleton_append, List.dropWhile_cons_of_pos (by decide)]

theorem splitAtCommas_ne_nil (text : List Char) : splitAtCommas text ≠ [] := by
  cases text with
  | nil => simp [splitAtCommas]
  | cons c cs =>
    rw [splitAtCommas]
    split
    · split <;> simp
    · simp

theorem splitAtCommas_comma (text : List Char) : splitAtCommas (',' :: text) = [] :: splitAtCommas text := by
  rw [splitAtCommas]
  split
  case h_1 piece pieces h => rw [if_pos rfl, h]
  case h_2 h => exact absurd h (splitAtCommas_ne_nil text)

/-- The pieces of a text without a comma in front of another. -/
theorem splitAtCommas_cons {c : Char} (hc : c ≠ ',') {piece : List Char} {pieces : List (List Char)}
    (h : splitAtCommas text = piece :: pieces) : splitAtCommas (c :: text) = (c :: piece) :: pieces := by
  rw [splitAtCommas, h]
  exact if_neg hc

theorem splitAtCommas_append {piece : List Char} {pieces : List (List Char)} (clean : ',' ∉ x)
    (h : splitAtCommas text = piece :: pieces) : splitAtCommas (x ++ text) = (x ++ piece) :: pieces := by
  induction x with
  | nil => exact h
  | cons c cs ih =>
    obtain ⟨first, rest⟩ := not_or.mp (mt List.mem_cons.mpr clean)
    exact splitAtCommas_cons (Ne.symm first) (ih rest)

theorem splitAtCommas_eq_singleton (clean : ',' ∉ x) : splitAtCommas x = [x] := by
  simpa using splitAtCommas_append clean (text := []) rfl

theorem operandTexts_of_trimmed (trimmed : trimSpaces text = x) (nonempty : x ≠ []) :
    operandTexts text = (splitAtCommas x).map trimSpaces := by
  obtain ⟨c, cs, rfl⟩ := List.exists_cons_of_ne_nil nonempty
  rw [operandTexts, trimmed]

theorem Piece.trimSpaces_eq (hx : Piece x) : trimSpaces x = x :=
  trimSpaces_eq_self (by simpa using hx.head?_ne []) (hx.getLast?_ne [])

theorem operandTexts_nil : operandTexts [] = [] := rfl

theorem operandTexts_one (hx : Piece x) : operandTexts (' ' :: x) = [x] := by
  rw [operandTexts_of_trimmed ((trimSpaces_cons_space x).trans hx.trimSpaces_eq) hx.1,
    splitAtCommas_eq_singleton hx.not_mem.2.1, List.map_singleton, hx.trimSpaces_eq]

theorem operandTexts_two (hx : Piece x) (hy : Piece y) : operandTexts (' ' :: x ++ ',' :: ' ' :: y) = [x, y] := by
  have trimmed : trimSpaces (x ++ ',' :: ' ' :: y) = x ++ ',' :: ' ' :: y :=
    trimSpaces_eq_self (hx.head?_ne _) (by simpa using hy.getLast?_ne (x ++ [',', ' ']))
  have pieces : splitAtCommas (x ++ ',' :: ' ' :: y) = [x, ' ' :: y] := by
    simpa using splitAtCommas_append hx.not_mem.2.1
      ((splitAtCommas_comma _).trans (congrArg _ (splitAtCommas_cons (by decide) (splitAtCommas_eq_singleton hy.not_mem.2.1))))
  rw [List.cons_append, operandTexts_of_trimmed ((trimSpaces_cons_space _).trans trimmed) (by simp), pieces]
  simp [trimSpaces_cons_space, hx.trimSpaces_eq, hy.trimSpaces_eq]

/-! ### Reading a written line -/

/-- What the reader makes of the line it finds, or fails to find. -/
def lineRead : Option SourceLine → ReadLine
  | some l => .line l
  | none => .refused

/-- The comment begins at the first semicolon. -/
theorem beforeComment_append (clean : ';' ∉ text) (comment : List Char) :
    beforeComment (text ++ comment) = text ++ beforeComment comment :=
  List.takeWhile_append_of_pos fun c hc => decide_eq_true fun (h : c = ';') => clean (h ▸ hc)

theorem beforeComment_eq_self (clean : ';' ∉ text) : beforeComment text = text := by
  simpa [beforeComment] using beforeComment_append clean []

theorem readLine_comment (clean : ';' ∉ text) (comment : List Char) :
    readLine (text ++ ' ' :: ';' :: comment) = readLine text := by
  have before : beforeComment (text ++ ' ' :: ';' :: comment) = text ++ [' '] := by
    rw [beforeComment_append clean]
    rfl
  rw [readLine, readLine, before, beforeComment_eq_self clean, trimSpaces_append_space]

theorem readLine_of_trimmed (trimmed : trimSpaces (beforeComment text) = x) (nonempty : x ≠ []) :
    readLine text = lineRead (lineOf (x.takeWhile (· ≠ ' ')) (operandTexts (x.dropWhile (· ≠ ' ')))) := by
  obtain ⟨c, cs, rfl⟩ := List.exists_cons_of_ne_nil nonempty
  rw [readLine, trimmed]
  rfl

/-- The reader divides a line after the mnemonic. -/
theorem readLine_of_mnemonic {rest : List Char} (hm : Piece m) (clean : ';' ∉ m ++ rest)
    (trimmed : trimSpaces (m ++ rest) = m ++ rest) (divided : rest = [] ∨ ∃ operands, rest = ' ' :: operands) :
    readLine (m ++ rest) = lineRead (lineOf m (operandTexts rest)) := by
  have inside : ∀ c ∈ m, decide (c ≠ ' ') = true := fun c hc => decide_eq_true (hm.2 c hc).1
  have mnemonic : (m ++ rest).takeWhile (· ≠ ' ') = m := by
    rw [List.takeWhile_append_of_pos inside]
    obtain rfl | ⟨operands, rfl⟩ := divided <;> simp
  have operands : (m ++ rest).dropWhile (· ≠ ' ') = rest := by
    rw [List.dropWhile_append_of_pos inside]
    obtain rfl | ⟨operands, rfl⟩ := divided <;> simp
  rw [readLine_of_trimmed ((congrArg trimSpaces (beforeComment_eq_self clean)).trans trimmed)
    (List.append_ne_nil_of_left_ne_nil hm.1 rest), mnemonic, operands]

theorem Written.not_mem_semicolon (written : Written text m operands) : ';' ∉ text := by
  cases written with
  | alone hm => exact hm.not_mem.2.2
  | one hm hx => simp [hm.not_mem, hx.not_mem]
  | two hm hx hy => simp [hm.not_mem, hx.not_mem, hy.not_mem]

/-- The reader finds the mnemonic and the operands written. -/
theorem Written.readLine_eq (written : Written text m operands) : readLine text = lineRead (lineOf m operands) := by
  have clean := written.not_mem_semicolon
  cases written with
  | alone hm => simpa [operandTexts_nil] using
      readLine_of_mnemonic (rest := []) hm (by simpa using clean) (by simpa using hm.trimSpaces_eq) (.inl rfl)
  | @one _ x hm hx =>
    rw [readLine_of_mnemonic hm clean ?_ (.inr ⟨x, rfl⟩), operandTexts_one hx]
    exact trimSpaces_eq_self (hm.head?_ne _) (by simpa using hx.getLast?_ne (m ++ [' ']))
  | @two _ x y hm hx hy =>
    rw [List.append_assoc] at *
    rw [readLine_of_mnemonic hm clean ?_ (.inr ⟨_, rfl⟩), operandTexts_two hx hy]
    exact trimSpaces_eq_self (hm.head?_ne _) (by simpa using hy.getLast?_ne (m ++ ' ' :: x ++ [',', ' ']))

end
end Sys2Proof.Machine
end

section
/-! Operands as text (R49), and every command read back from its own line. -/

namespace Sys2Proof.Machine

/-! ### Digits -/

theorem hexDigit_clean : ∀ d : BitVec 4, hexDigit d ≠ ' ' ∧ hexDigit d ≠ ',' ∧ hexDigit d ≠ ';' := by decide

theorem hexDigitValue_hexDigit : ∀ d : BitVec 4, hexDigitValue (hexDigit d) = some d.toNat := by decide

theorem digitsValue_hexDigit (n : Nat) (d : BitVec 4) (cs : List Char) :
    digitsValue 16 hexDigitValue n (hexDigit d :: cs) = digitsValue 16 hexDigitValue (n * 16 + d.toNat) cs := by
  rw [digitsValue, hexDigitValue_hexDigit]

theorem piece_hexByte (a : Byte) : Piece (hexByte a) := by
  simp [Piece, hexByte, hexDigit_clean]

/-- A byte written in hexadecimal is read back, where decimal is allowed and where it is not. -/
theorem operandValue_hexByte (decimal : Bool) (a : Byte) : operandValue decimal (hexByte a) = some a.toNat := by
  have halves : (0 * 16 + (a.extractLsb' 4 4).toNat) * 16 + (a.extractLsb' 0 4).toNat = a.toNat := by
    simp only [BitVec.extractLsb'_toNat, Nat.shiftRight_eq_div_pow]
    omega
  rw [hexByte, operandValue, digitsValue_hexDigit, digitsValue_hexDigit, digitsValue, halves]

/-- The six hexadecimal digits of a word. -/
def hexWord (w : CommandWord) : List Char :=
  ['0', 'x', hexDigit (w.extractLsb' 20 4), hexDigit (w.extractLsb' 16 4), hexDigit (w.extractLsb' 12 4),
    hexDigit (w.extractLsb' 8 4), hexDigit (w.extractLsb' 4 4), hexDigit (w.extractLsb' 0 4)]

theorem piece_hexWord (w : CommandWord) : Piece (hexWord w) := by
  simp [Piece, hexWord, hexDigit_clean]

theorem operandValue_hexWord (w : CommandWord) : operandValue false (hexWord w) = some w.toNat := by
  have digits : (((((0 * 16 + (w.extractLsb' 20 4).toNat) * 16 + (w.extractLsb' 16 4).toNat) * 16 +
      (w.extractLsb' 12 4).toNat) * 16 + (w.extractLsb' 8 4).toNat) * 16 + (w.extractLsb' 4 4).toNat) * 16 +
      (w.extractLsb' 0 4).toNat = w.toNat := by
    simp only [BitVec.extractLsb'_toNat, Nat.shiftRight_eq_div_pow]
    omega
  rw [hexWord, operandValue]
  simp only [digitsValue_hexDigit]
  rw [digitsValue, digits]

theorem decimalDigitValue_digitChar : ∀ d < 10, decimalDigitValue d.digitChar = some d := by decide

theorem digitsValue_append_digit {base : Nat} {digit : Char → Option Nat} {c : Char} {d n m : Nat} {cs : List Char}
    (h : digitsValue base digit n cs = some m) (hc : digit c = some d) :
    digitsValue base digit n (cs ++ [c]) = some (m * base + d) := by
  induction cs generalizing n with
  | nil =>
    obtain rfl : n = m := by simpa [digitsValue] using h
    simp only [List.nil_append, digitsValue, hc]
  | cons e es ih =>
    rw [digitsValue] at h
    rw [List.cons_append, digitsValue]
    cases he : digit e with
    | some k =>
      rw [he] at h
      exact ih h
    | none => simp [he] at h

/-- A number written in decimal is read back, digit by digit from the left. -/
theorem digitsValue_toDigits (n : Nat) : digitsValue 10 decimalDigitValue 0 (Nat.toDigits 10 n) = some n := by
  induction n using Nat.strong_induction_on with
  | _ n ih =>
    by_cases small : n < 10
    · simp [Nat.toDigits_of_lt_base small, digitsValue, decimalDigitValue_digitChar n small]
    · rw [Nat.toDigits_of_base_le (by decide) (not_lt.mp small),
        digitsValue_append_digit (ih (n / 10) (by omega)) (decimalDigitValue_digitChar (n % 10) (by omega)), Nat.div_add_mod']

theorem piece_writeDecimal (n : Nat) : Piece (writeDecimal n) := by
  refine ⟨Nat.toDigits_ne_nil, fun c hc => ?_⟩
  have digit : c.isDigit = true := Nat.isDigit_of_mem_toDigits (by decide) (by decide) hc
  refine ⟨?_, ?_, ?_⟩ <;> rintro rfl <;> exact absurd digit (by decide)

theorem x_not_mem_writeDecimal (n : Nat) : 'x' ∉ writeDecimal n := fun hx =>
  absurd (Nat.isDigit_of_mem_toDigits (by decide) (by decide) hx) (by decide)

/-- A text without an `x` is no hexadecimal operand. -/
theorem operandValue_of_decimal {text : List Char} (decimal : Bool) (nonempty : text ≠ []) (notHex : 'x' ∉ text) :
    operandValue decimal text = if decimal then digitsValue 10 decimalDigitValue 0 text else none := by
  unfold operandValue
  split
  case h_1 => simp at notHex
  case h_2 => rfl
  case h_3 => exact absurd rfl nonempty

theorem operandValue_writeDecimal (n : Nat) : operandValue true (writeDecimal n) = some n := by
  rw [operandValue_of_decimal true (piece_writeDecimal n).1 (x_not_mem_writeDecimal n), if_pos rfl]
  exact digitsValue_toDigits n

theorem operandValue_false_writeDecimal (n : Nat) : operandValue false (writeDecimal n) = none :=
  operandValue_of_decimal false (piece_writeDecimal n).1 (x_not_mem_writeDecimal n)

/-! ### Commands -/

theorem piece_mnemonic (i : Instr) : Piece i.mnemonic.toList := by
  cases i <;> simp [Piece, Instr.mnemonic]

/-- The operands of a command as they are written. -/
def writtenOperands : Instr → List (List Char)
  | .xtime a => [hexByte a]
  | .gfmul a b => [hexByte a, hexByte b]
  | .gfinv a => [hexByte a]
  | .rotl8 x s => [hexByte x, hexByte (0#5 ++ s)]
  | .affine x => [hexByte x]
  | .gensbox => []
  | .genrcon => []
  | .sbox k => [hexByte k]
  | .isbox k => [hexByte k]
  | .rcon k => [hexByte k]

theorem written_writeCommand (i : Instr) : Written (writeCommand i) i.mnemonic.toList (writtenOperands i) := by
  have hm := piece_mnemonic i
  cases i with
  | xtime a => exact .one hm (piece_hexByte a)
  | gfmul a b => exact .two hm (piece_hexByte a) (piece_hexByte b)
  | gfinv a => exact .one hm (piece_hexByte a)
  | rotl8 x s => exact .two hm (piece_hexByte x) (piece_hexByte _)
  | affine x => exact .one hm (piece_hexByte x)
  | gensbox => exact .alone hm
  | genrcon => exact .alone hm
  | sbox k => exact .one hm (piece_hexByte k)
  | isbox k => exact .one hm (piece_hexByte k)
  | rcon k => exact .one hm (piece_hexByte k)

theorem toNat_zero_append_shift : ∀ s : Shift, (0#5 ++ s : Byte).toNat = s.toNat := by decide

/-- The reader takes the operands written for the command's own. -/
theorem lineOf_writtenOperands (i : Instr) : lineOf i.mnemonic.toList (writtenOperands i) = some i.line := by
  cases i <;> simp [lineOf, Instr.mnemonic, writtenOperands, operandValue_hexByte, toNat_zero_append_shift, Instr.line]

theorem readLine_writeCommand (i : Instr) : readLine (writeCommand i) = .line i.line := by
  rw [(written_writeCommand i).readLine_eq, lineOf_writtenOperands, lineRead]

theorem readLine_writeCommand_comment (i : Instr) (comment : List Char) :
    readLine (writeCommand i ++ ' ' :: ';' :: comment) = readLine (writeCommand i) :=
  readLine_comment (written_writeCommand i).not_mem_semicolon comment

theorem readLine_writeWord (w : CommandWord) : readLine (writeWord w) = .line (.word w.toNat) := by
  have directive : Piece ".word".toList := by simp [Piece]
  have written : Written (writeWord w) ".word".toList [hexWord w] := .one directive (piece_hexWord w)
  rw [written.readLine_eq]
  simp [lineOf, lineRead, operandValue_hexWord]

/-! ### Decimal operands -/

theorem readLine_rotl8_decimal (x : Byte) (n : Nat) :
    readLine ("ROTL8 ".toList ++ hexByte x ++ ", ".toList ++ writeDecimal n) = .line (.rotl8 x.toNat n) := by
  have written : Written ("ROTL8".toList ++ ' ' :: hexByte x ++ ',' :: ' ' :: writeDecimal n) "ROTL8".toList
      [hexByte x, writeDecimal n] := .two (by simp [Piece]) (piece_hexByte x) (piece_writeDecimal n)
  have reading := written.readLine_eq
  simpa [lineOf, lineRead, operandValue_hexByte, operandValue_writeDecimal] using reading

theorem readLine_rcon_decimal (n : Nat) : readLine ("RCON ".toList ++ writeDecimal n) = .line (.rcon n) := by
  have written : Written ("RCON".toList ++ ' ' :: writeDecimal n) "RCON".toList [writeDecimal n] :=
    .one (by simp [Piece]) (piece_writeDecimal n)
  have reading := written.readLine_eq
  simpa [lineOf, lineRead, operandValue_writeDecimal] using reading

/-- Elsewhere a decimal operand is refused (R49). -/
theorem readLine_decimal_refused {mnemonic : String}
    (h : mnemonic ∈ ["XTIME", "GFINV", "AFFINE", "SBOX", "ISBOX", ".word"]) (n : Nat) :
    readLine (mnemonic.toList ++ ' ' :: writeDecimal n) = .refused := by
  have piece : Piece mnemonic.toList := by
    simp only [List.mem_cons, List.not_mem_nil, or_false] at h
    obtain rfl | rfl | rfl | rfl | rfl | rfl := h <;> simp [Piece]
  have line : lineOf mnemonic.toList [writeDecimal n] = none := by
    simp only [List.mem_cons, List.not_mem_nil, or_false] at h
    obtain rfl | rfl | rfl | rfl | rfl | rfl := h <;> simp [lineOf, operandValue_false_writeDecimal]
  rw [(Written.one piece (piece_writeDecimal n)).readLine_eq, line, lineRead]

/-- Settles O6: a line is divided where it was put together, and its numbers are read digit by digit as they were written. -/
theorem writtenCommandsAreReadBack : Obligations.WrittenCommandsAreReadBack :=
  ⟨fun i => ⟨i.line, readLine_writeCommand i, assemble_line i⟩, readLine_writeCommand_comment, fun _ => rfl,
    fun w => ⟨readLine_writeWord w, assemble_word w⟩, fun x s => readLine_rotl8_decimal x s.toNat,
    fun i => readLine_rcon_decimal i.toNat, fun i _ h => readLine_decimal_refused h i.toNat,
    by decide, by decide, by decide, by decide, by decide, by decide, by decide, by decide, by decide, by decide, by decide,
    by decide, by decide, by decide, by decide⟩

end Sys2Proof.Machine
end
